-- ==== Sys2Proof/Word.lean ====
section
/-! DEFINITION. The word and byte types (00_scope.md R6: `WORD_W` = `ILEN` = 32; 20_memory.md R40: the program
buffer is made of 8-bit bytes). -/
namespace Sys2Proof

/-- A 32-bit unit: one instruction word, one register, one data-memory word (R6, R12). -/
abbrev Word := BitVec 32

/-- One byte of the program buffer (R40). -/
abbrev Byte := BitVec 8

end Sys2Proof
end

