-- ==== Sys2Proof/Config.lean ====
section
/-! DEFINITION. The fixed parameters of the machine and the default sizes (00_scope.md R6). `REG_COUNT`, `MEM_SIZE`
and `PROG` are arguments of a run (R6, R191) and stand in `Machine.State`; only their defaults stand here. The spec leaves
no value free inside a step (41_control_fsm.md R121), so this file holds no opaque constant. -/
namespace Sys2Proof

/-- `OPC_W`, the width of the opcode field (R6). -/
@[simp] def Config.opcW : Nat := 6
/-- `REG_W`, the width of a register-index field (R6). -/
@[simp] def Config.regW : Nat := 5
/-- `ADDR_W`, the width of a memory-address field (R6). -/
@[simp] def Config.addrW : Nat := 19
/-- `IMM_W`, the width of the immediate field (R6). -/
@[simp] def Config.immW : Nat := 20
/-- The default `REG_COUNT` (R6). -/
@[simp] def Config.defaultRegCount : Nat := 32
/-- The default `MEM_SIZE` in words (R6). -/
@[simp] def Config.defaultMemSize : Nat := 65536

end Sys2Proof
end

