-- ==== Sys2Proof/Syntax.lean ====
section
/-! DEFINITION. The instructions: the closed tagged variant of 30_encoding.md R86, each carrying exactly its own two
operand fields in pack order (R71). It is the source's IR and the decoder's output at once (00_scope.md R12). -/
namespace Sys2Proof

/-- The four opcode names (30_encoding.md R66, R77). -/
inductive Opcode where
  | loadConst
  | readMem
  | writeMem
  | sqrt
deriving DecidableEq, Repr

/-- One instruction. Operands are natural numbers, as in the IR (30_encoding.md R81); that each fits its field is
`Instr.wellFormed`. -/
inductive Instr where
  /-- `LOAD_CONST value, reg` (42_load_const.md R130). -/
  | loadConst (value reg : Nat)
  /-- `READ_MEM reg, addr` (43_memory_transfer.md R135). -/
  | readMem (reg addr : Nat)
  /-- `WRITE_MEM addr, src_reg` (43_memory_transfer.md R137). -/
  | writeMem (addr srcReg : Nat)
  /-- `SQRT reg, addr` (44_sqrt.md R145). -/
  | sqrt (reg addr : Nat)
deriving DecidableEq, Repr

/-- The opcode name of an instruction. -/
def Instr.opcode : Instr → Opcode
  | .loadConst _ _ => .loadConst
  | .readMem _ _ => .readMem
  | .writeMem _ _ => .writeMem
  | .sqrt _ _ => .sqrt

/-- The two operands in pack order, field B then field C (30_encoding.md R71). -/
def Instr.operands : Instr → Nat × Nat
  | .loadConst value reg => (value, reg)
  | .readMem reg addr => (reg, addr)
  | .writeMem addr srcReg => (addr, srcReg)
  | .sqrt reg addr => (reg, addr)

/-- The instruction of an opcode with its two fields in pack order. -/
def Instr.ofFields : Opcode → Nat → Nat → Instr
  | .loadConst, b, c => .loadConst b c
  | .readMem, b, c => .readMem b c
  | .writeMem, b, c => .writeMem b c
  | .sqrt, b, c => .sqrt b c

/-- The register index an instruction names: `reg` or `src_reg` (10_state.md R25, R26). -/
def Instr.regOperand : Instr → Nat
  | .loadConst _ reg => reg
  | .readMem reg _ => reg
  | .writeMem _ srcReg => srcReg
  | .sqrt reg _ => reg

/-- The data-memory address an instruction names, if it accesses data memory (20_memory.md R47). -/
def Instr.addrOperand : Instr → Option Nat
  | .loadConst _ _ => none
  | .readMem _ addr => some addr
  | .writeMem addr _ => some addr
  | .sqrt _ addr => some addr

/-- The names of the operand fields (30_encoding.md R71), for the context of a pack error. -/
inductive FieldName where
  | value
  | reg
  | addr
  | srcReg
deriving DecidableEq, Repr

end Sys2Proof
end

