-- ==== Sys2Proof/WellFormed.lean ====
section
/-! DEFINITION. Well-formed instructions: every operand fits its field (30_encoding.md R70, R73). No bound of
`REG_COUNT` or `MEM_SIZE` enters (00_scope.md R8). -/
namespace Sys2Proof

/-- The value fits a field of the given width: `value < 2^width` (R73). -/
def fits (width value : Nat) : Bool := value < 2 ^ width

/-- Every operand fits the field the layout table gives it (R70). -/
def Instr.wellFormed : Instr → Bool
  | .loadConst value reg => fits Config.immW value && fits Config.regW reg
  | .readMem reg addr => fits Config.regW reg && fits Config.addrW addr
  | .writeMem addr srcReg => fits Config.addrW addr && fits Config.regW srcReg
  | .sqrt reg addr => fits Config.regW reg && fits Config.addrW addr

end Sys2Proof
end

