-- ==== Sys2Proof/Decode.lean ====
section
/-! DEFINITION. The layout table, the decoder, pack (the encoder), canonical words and byte serialisation
(30_encoding.md, 40_decoder.md). `decode` and `pack` both read the one table `Opcode.layout` (R71). -/
namespace Sys2Proof

/-- One operand field: its name, the offset of its lowest bit and its width (30_encoding.md R71). -/
structure Field where
  name : FieldName
  offset : Nat
  width : Nat
deriving DecidableEq, Repr

/-- The opcode values (30_encoding.md R66). -/
def Opcode.code : Opcode → BitVec 6
  | .loadConst => 29
  | .readMem => 4
  | .writeMem => 43
  | .sqrt => 2

/-- The layout table: field B and field C of each opcode (30_encoding.md R71). -/
def Opcode.layout : Opcode → Field × Field
  | .loadConst => (⟨.value, 6, Config.immW⟩, ⟨.reg, 26, Config.regW⟩)
  | .readMem => (⟨.reg, 6, Config.regW⟩, ⟨.addr, 11, Config.addrW⟩)
  | .writeMem => (⟨.addr, 6, Config.addrW⟩, ⟨.srcReg, 25, Config.regW⟩)
  | .sqrt => (⟨.reg, 6, Config.regW⟩, ⟨.addr, 11, Config.addrW⟩)

/-- How many high bits of a word belong to no field (30_encoding.md R68). -/
def Opcode.unusedBits : Opcode → Nat
  | .loadConst => 1
  | .readMem => 2
  | .writeMem => 2
  | .sqrt => 2

/-- `w[5:0]` (40_decoder.md R93). -/
def opcodeField (w : Word) : BitVec 6 := w.extractLsb' 0 6

/-- The opcode with a given code, if there is one: the four tests of 40_decoder.md R92. -/
def Opcode.ofCode (c : BitVec 6) : Option Opcode :=
  if c = 29 then some .loadConst
  else if c = 4 then some .readMem
  else if c = 43 then some .writeMem
  else if c = 2 then some .sqrt
  else none

/-- A field's value: `(w >> offset) mod 2^width` (00_scope.md R9, 40_decoder.md R94). -/
def Field.extract (f : Field) (w : Word) : Nat := (w.toNat >>> f.offset) % 2 ^ f.width

/-- The decoder's answer: an instruction, or the verdict "unknown opcode" with `w[5:0]` (40_decoder.md R92, R95). -/
inductive Verdict where
  | known (i : Instr)
  | unknown (op : BitVec 6)
deriving DecidableEq, Repr

/-- `decode(w)`, total on the 2^32 words; the unused high bits are not read (40_decoder.md R90, R92, R96). -/
def decode (w : Word) : Verdict :=
  match Opcode.ofCode (opcodeField w) with
  | none => .unknown (opcodeField w)
  | some op => .known (Instr.ofFields op (op.layout.1.extract w) (op.layout.2.extract w))

/-- Pack was called with a field value that does not fit its width (30_encoding.md R73). -/
inductive PackError where
  | fieldOutOfRange (op : Opcode) (field : FieldName) (value : Nat)
deriving DecidableEq, Repr

/-- The bitwise union of the opcode and the two shifted fields (30_encoding.md R72). -/
def packWord (op : Opcode) (b c : Nat) : Word :=
  BitVec.ofNat 32 (op.code.toNat ||| (b <<< op.layout.1.offset) ||| (c <<< op.layout.2.offset))

/-- `pack(op, fields)`: a field that does not fit fails, nothing is truncated (30_encoding.md R72, R73). When both
fields are too wide, field B is the one named (DESIGN CHOICE, notes/assumptions/9.md). -/
def pack (op : Opcode) (b c : Nat) : Except PackError Word :=
  if fits op.layout.1.width b = false then .error (.fieldOutOfRange op op.layout.1.name b)
  else if fits op.layout.2.width c = false then .error (.fieldOutOfRange op op.layout.2.name c)
  else .ok (packWord op b c)

/-- The encoder: the word of an instruction, an error for one that is not well formed. -/
def encode (i : Instr) : Except PackError Word :=
  pack i.opcode i.operands.1 i.operands.2

/-- A word with its unused high bits cleared; a word of unknown opcode is left as it is (30_encoding.md R68). -/
def clearUnused (w : Word) : Word :=
  match Opcode.ofCode (opcodeField w) with
  | none => w
  | some op => w &&& BitVec.ofNat 32 (2 ^ (32 - op.unusedBits) - 1)

/-- A known opcode and zero unused bits (30_encoding.md R76). -/
def canonical (w : Word) : Bool :=
  (Opcode.ofCode (opcodeField w)).isSome && clearUnused w == w

/-- The decoder outputs flattened for a datapath (40_decoder.md R100). -/
structure FlatDecode where
  isLc : Bool
  isRd : Bool
  isWr : Bool
  isSq : Bool
  valid : Bool
  ridx : BitVec 5
  maddr : BitVec 19
  imm : BitVec 20
deriving DecidableEq, Repr

/-- The flattened decoder (40_decoder.md R100); `ridx`, `maddr` and `imm` mean something only where R100 says so. -/
def flatDecode (w : Word) : FlatDecode :=
  let isLc := w.extractLsb' 0 6 == 29#6
  let isRd := w.extractLsb' 0 6 == 4#6
  let isWr := w.extractLsb' 0 6 == 43#6
  let isSq := w.extractLsb' 0 6 == 2#6
  { isLc := isLc
    isRd := isRd
    isWr := isWr
    isSq := isSq
    valid := isLc || isRd || isWr || isSq
    ridx := if isLc then w.extractLsb' 26 5 else if isWr then w.extractLsb' 25 5 else w.extractLsb' 6 5
    maddr := if isWr then w.extractLsb' 6 19 else w.extractLsb' 11 19
    imm := w.extractLsb' 6 20 }

/-- The four bytes of a word, least significant byte first (30_encoding.md R75). -/
def wordBytes (w : Word) : List Byte :=
  [w.extractLsb' 0 8, w.extractLsb' 8 8, w.extractLsb' 16 8, w.extractLsb' 24 8]

/-- The word of four bytes in buffer order (20_memory.md R41). -/
def wordOfBytes (b0 b1 b2 b3 : Byte) : Word :=
  b0.setWidth 32 ||| (b1.setWidth 32 <<< 8) ||| (b2.setWidth 32 <<< 16) ||| (b3.setWidth 32 <<< 24)

/-- `Fetch32(p)`: the word at byte offset `p`, defined only when four bytes are left (20_memory.md R41). -/
def fetch32 (prog : List Byte) (p : Nat) : Option Word :=
  match prog.drop p with
  | b0 :: b1 :: b2 :: b3 :: _ => some (wordOfBytes b0 b1 b2 b3)
  | _ => none

/-- A word of the opcode table given as `nbits` bits of a number, every bit above them 0. -/
def tableWord (nbits w : Nat) : Word := BitVec.ofNat 32 (w % 2 ^ nbits)

/-- The instruction the decoder reads from a table word laid out in memory as the hardware stores it (R75, R41). -/
def decodeTableWord (nbits w : Nat) : Option Instr :=
  match fetch32 (wordBytes (tableWord nbits w)) 0 with
  | none => none
  | some v =>
    match decode v with
    | .known i => some i
    | .unknown _ => none

end Sys2Proof
end

