-- ==== Sys2Proof/Machine/State.lean ====
section
/-! DEFINITION. The state of the machine (10_state.md R20, R32, R37; 60_exceptions.md R171) and the state after reset
(R34). -/
namespace Sys2Proof.Machine

/-- Why the host's step answers "fault": the machine has already stopped and the spec gives it no successor. An
instruction never answers with one of these: a fault of the spec (unknown opcode, index, domain) is the NEXT state in which
`status` is `faulted` (60_exceptions.md R170). -/
inductive Fault where
  /-- Raised by `step` and `tick` on a HALTED state: it has no successor (41_control_fsm.md R115, R118). Safe. -/
  | alreadyHalted
  /-- Raised by `step` and `tick` on a FAULTED state: it has no successor (41_control_fsm.md R115, R118). Safe. -/
  | alreadyFaulted
deriving DecidableEq, Repr

/-- Why the host's step answers "refused". -/
inductive Refusal where
  /-- Raised by an arm of `exec` whose instruction has no meaning yet; no arm does so here. Safe. -/
  | notModelled (mnemonic : String)
deriving DecidableEq, Repr

/-- The phases of the control FSM while RUNNING (41_control_fsm.md R110). -/
inductive Phase where
  | fetch
  | decode
  | execute
deriving DecidableEq, Repr

/-- The three fault causes (60_exceptions.md R160, R161). -/
inductive FaultCause where
  | unknownOpcode
  | indexOutOfRange
  | domainError
deriving DecidableEq, Repr

/-- `fault_space` (60_exceptions.md R171). -/
inductive FaultSpace where
  | none
  | reg
  | mem
deriving DecidableEq, Repr

/-- The fault record `status.info` (60_exceptions.md R171). -/
structure FaultRecord where
  faultPc : Nat
  faultWord : Word
  faultOp : BitVec 6
  faultSpace : FaultSpace
  faultIndex : BitVec 19
  faultValue : Word
deriving DecidableEq, Repr

/-- `status`: RUNNING, HALTED or FAULTED(cause, info) (10_state.md R20). -/
inductive Status where
  | running
  | halted
  | faulted (cause : FaultCause) (info : FaultRecord)
deriving DecidableEq, Repr

/-- Data memory: the words that are not 0, by word address. An unlisted address reads as 0, its reset value (R34). The
unit is the 32-bit word: R42 forbids a model an array of bytes. -/
abbrev Memory := List (Nat × Word)

/-- The whole state. The first four fields are the tuple of 10_state.md R20; the next three are the latches of R37; the
last two, with the length of `x`, are the arguments of the run (R6, R191), which no step changes. -/
structure State where
  /-- The register file; `REG_COUNT` is its length (R23). -/
  x : List Word
  /-- The data memory (R35). -/
  mem : Memory
  /-- The byte offset of the next instruction (R28). -/
  pc : Nat
  /-- RUNNING, HALTED or FAULTED (R32). -/
  status : Status
  /-- The FSM phase latch (R37). -/
  phase : Phase
  /-- The instruction register: the word last fetched (R37). -/
  ir : Word
  /-- The decoded instruction last latched (R37, R113). -/
  latch : Instr
  /-- `MEM_SIZE`, in words (R32). -/
  memSize : Nat
  /-- `PROG`, the program buffer; `PROG_LEN` is its length (R6, R36). -/
  prog : List Byte
deriving DecidableEq, Repr

/-- What a step answers. -/
abbrev StepResult := Host.Outcome State Fault Refusal

/-- The state after reset for the sizes and the program the host has set (10_state.md R34; 70_reset_and_hazards.md
R190, R191). The spec leaves `ir` and the decoded-field latch unspecified and never read before written; here they are the
zero word and `LOAD_CONST` 0, 0 (DESIGN CHOICE, notes/assumptions/1.md). -/
def State.resetWith (regCount memSize : Nat) (prog : List Byte) : State where
  x := List.replicate regCount 0
  mem := []
  pc := 0
  status := .running
  phase := .fetch
  ir := 0
  latch := .loadConst 0 0
  memSize := memSize
  prog := prog

/-- The state after reset with the default sizes (R6) and no program placed (notes/assumptions/2.md). -/
def State.reset : State := State.resetWith Config.defaultRegCount Config.defaultMemSize []

end Sys2Proof.Machine
end

