-- ==== Sys2Proof/Machine/Ops.lean ====
section
/-! DEFINITION. The named operations over memory, registers, `pc` and `status` that the meanings share: the primitives of
00_scope.md R10, halting (41_control_fsm.md R112) and taking a fault (60_exceptions.md R170, R171). There is no return from a
fault (R173): only reset leaves FAULTED (R192), so no operation stands beside `raise`. -/
namespace Sys2Proof.Machine

/-- The canonical form: addresses strictly rising, no listed word equal to what an unlisted address reads as. -/
abbrev Memory.wf (m : Memory) : Prop := m.Pairwise (fun p q => p.1 < q.1) ∧ ∀ p ∈ m, p.2 ≠ 0

/-- Every listed address is below `n`. -/
abbrev Memory.below (m : Memory) (n : Nat) : Prop := ∀ p ∈ m, p.1 < n

/-- The word at a word address; an unlisted address reads as 0 (R34). -/
def Memory.read : Memory → Nat → Word
  | [], _ => 0
  | (k, v) :: t, a => if k = a then v else Memory.read t a

/-- The memory without its entry at an address. -/
def Memory.erase (m : Memory) (a : Nat) : Memory := m.filter (fun p => p.1 != a)

/-- An entry put in at its place in the rising order. -/
def Memory.insert : Memory → Nat → Word → Memory
  | [], a, v => [(a, v)]
  | (k, u) :: t, a, v => if a < k then (a, v) :: (k, u) :: t else (k, u) :: Memory.insert t a v

/-- One whole word stored at a word address (20_memory.md R47, R48); storing 0 removes the entry. -/
def Memory.write (m : Memory) (a : Nat) (v : Word) : Memory :=
  if v = 0 then m.erase a else (m.erase a).insert a v

/-- `REG_COUNT` (R6). -/
def State.regCount (s : State) : Nat := s.x.length

/-- `PROG_LEN` (R6). -/
def State.progLen (s : State) : Nat := s.prog.length

/-- `x[i]` (R10); the rules test `i < REG_COUNT` before they use it. -/
def State.readReg (s : State) (i : Nat) : Word := s.x.getD i 0

/-- `x[i] <- v` (R10); no register is hardwired (10_state.md R24). -/
def State.writeReg (s : State) (i : Nat) (v : Word) : State := { s with x := s.x.set i v }

/-- `MemRead(a, 32)` (R10). -/
def State.readMem (s : State) (a : Nat) : Word := s.mem.read a

/-- `MemWrite(a, 32, v)` (R10). -/
def State.writeMem (s : State) (a : Nat) (v : Word) : State := { s with mem := s.mem.write a v }

/-- `pc <- pc + 4` and back to FETCH: the end of every instruction that completes (41_control_fsm.md R114). -/
def State.complete (s : State) : State := { s with pc := s.pc + 4, phase := .fetch }

/-- `halt`: `status <- HALTED` and nothing else (41_control_fsm.md R112). -/
def State.halt (s : State) : State := { s with status := .halted }

/-- The fault record of the instruction at `pc` whose word stands in `ir` (60_exceptions.md R171). -/
def State.faultRecord (s : State) (space : FaultSpace) (index : Nat) (value : Word) : FaultRecord where
  faultPc := s.pc
  faultWord := s.ir
  faultOp := opcodeField s.ir
  faultSpace := space
  faultIndex := BitVec.ofNat 19 index
  faultValue := value

/-- `raise F(info)`, the one way a fault is taken (60_exceptions.md R170): `status` becomes FAULTED with the record of R171,
and no register, no memory word and not the pc is written. -/
def State.raise (s : State) (cause : FaultCause) (space : FaultSpace) (index : Nat) (value : Word) : State :=
  { s with status := .faulted cause (s.faultRecord space index value) }

/-- UnknownOpcode (60_exceptions.md R162). -/
def State.raiseUnknown (s : State) : State := s.raise .unknownOpcode .none 0 0

/-- IndexOutOfRange in a space at an index (60_exceptions.md R163). -/
def State.raiseIndex (s : State) (space : FaultSpace) (index : Nat) : State := s.raise .indexOutOfRange space index 0

/-- DomainError at an operand address with the operand word (60_exceptions.md R164). -/
def State.raiseDomain (s : State) (addr : Nat) (value : Word) : State := s.raise .domainError .mem addr value

/-- The numbers of `status.state` (10_state.md R32). -/
def Status.stateCode : Status → BitVec 2
  | .running => 0
  | .halted => 1
  | .faulted _ _ => 2

/-- The numbers of the fault causes (60_exceptions.md R161). -/
def FaultCause.code : FaultCause → BitVec 2
  | .unknownOpcode => 1
  | .indexOutOfRange => 2
  | .domainError => 3

/-- `status.cause`: 0 when not faulted (10_state.md R32). -/
def Status.causeCode : Status → BitVec 2
  | .running => 0
  | .halted => 0
  | .faulted c _ => c.code

/-- The numbers of `fault_space` (60_exceptions.md R171). -/
def FaultSpace.code : FaultSpace → BitVec 2
  | .none => 0
  | .reg => 1
  | .mem => 2

/-- The all-zero fault record (10_state.md R34). -/
def FaultRecord.zero : FaultRecord where
  faultPc := 0
  faultWord := 0
  faultOp := 0
  faultSpace := .none
  faultIndex := 0
  faultValue := 0

/-- `status.info`: all zero when not faulted (10_state.md R32, R34). -/
def Status.info : Status → FaultRecord
  | .running => .zero
  | .halted => .zero
  | .faulted _ r => r

/-- The program buffer with a word's bytes at an offset. A buffer shorter than the offset is filled up with zero bytes
first, which no state a run reaches needs (10_state.md R29). -/
def placeWord (prog : List Byte) (p : Nat) (w : Word) : List Byte :=
  prog.take p ++ List.replicate (p - prog.length) 0 ++ wordBytes w ++ prog.drop (p + 4)

end Sys2Proof.Machine
end

