-- ==== Sys2Proof/Machine/Operands.lean ====
section
/-! DEFINITION. The operand forms: the 20-bit constant, the absolute word address and the register index, with the index
checks every instruction makes before its one write (60_exceptions.md R163, R166; 43_memory_transfer.md R139). -/
namespace Sys2Proof.Machine

/-- `zext_32(v)`: the word with the same numeric value (00_scope.md R10, 30_encoding.md R70). -/
def zext32 (v : Nat) : Word := BitVec.ofNat 32 v

/-- The effective address is the `addr` field itself (43_memory_transfer.md R139). -/
def effectiveAddress (addr : Nat) : Nat := addr

/-- Go on if the register exists, else IndexOutOfRange in the space REG (60_exceptions.md R163). -/
def requireReg (s : State) (i : Nat) (go : StepResult) : StepResult :=
  if i ≥ s.regCount then .next (s.raiseIndex .reg i) else go

/-- Go on if the memory word exists, else IndexOutOfRange in the space MEM (60_exceptions.md R163). -/
def requireAddr (s : State) (a : Nat) (go : StepResult) : StepResult :=
  if a ≥ s.memSize then .next (s.raiseIndex .mem a) else go

end Sys2Proof.Machine
end

