-- ==== Sys2Proof/Machine/LoadConst.lean ====
section
/-! DEFINITION. LOAD_CONST (42_load_const.md). -/
namespace Sys2Proof.Machine

/-- `exec_load_const` (42_load_const.md R130). -/
def execLoadConst (value reg : Nat) (s : State) : StepResult :=
  requireReg s reg <|
  .next (s.writeReg reg (zext32 value)).complete

end Sys2Proof.Machine
end

