-- ==== Sys2Proof/Machine/MemoryTransfer.lean ====
section
/-! DEFINITION. READ_MEM and WRITE_MEM (43_memory_transfer.md). The operand read is checked before the result write
(60_exceptions.md R166). -/
namespace Sys2Proof.Machine

/-- `exec_read_mem` (43_memory_transfer.md R135). -/
def execReadMem (reg addr : Nat) (s : State) : StepResult :=
  requireAddr s (effectiveAddress addr) <|
  requireReg s reg <|
  .next (s.writeReg reg (s.readMem (effectiveAddress addr))).complete

/-- `exec_write_mem` (43_memory_transfer.md R137). -/
def execWriteMem (addr srcReg : Nat) (s : State) : StepResult :=
  requireReg s srcReg <|
  requireAddr s (effectiveAddress addr) <|
  .next (s.writeMem (effectiveAddress addr) (s.readReg srcReg)).complete

end Sys2Proof.Machine
end

