-- ==== Sys2Proof/Machine/Flags.lean ====
section
/-! DEFINITION. The machine has no flags, no condition codes and no predicates (10_state.md R31). The one condition an
instruction computes from a data word is the sign of SQRT's operand, which stands here. -/
namespace Sys2Proof.Machine

/-- The two's-complement reading of a word (00_scope.md R10). -/
def signed32 (v : Word) : Int := if v.toNat < 2 ^ 31 then (v.toNat : Int) else (v.toNat : Int) - 2 ^ 32

/-- `signed32(v) < 0` (44_sqrt.md R147). -/
def isNegative (v : Word) : Bool := decide (signed32 v < 0)

end Sys2Proof.Machine
end

