-- ==== Sys2Proof/Machine/Sqrt.lean ====
section
/-! DEFINITION. SQRT and the exact integer square root (44_sqrt.md). How a unit computes the root is left open (R146); the
bit-by-bit search below is one way, and only its result is claimed. -/
namespace Sys2Proof.Machine

/-- The root found so far is `r`; try the bits `k - 1`, ..., 0, keeping a bit when the square still does not exceed `n`. -/
def isqrtFrom (n : Nat) : Nat → Nat → Nat
  | 0, r => r
  | k + 1, r => if (r + 2 ^ k) * (r + 2 ^ k) ≤ n then isqrtFrom n k (r + 2 ^ k) else isqrtFrom n k r

/-- `isqrt(n)`, the `r` with `r * r ≤ n < (r + 1) * (r + 1)` (44_sqrt.md R146). -/
def isqrt (n : Nat) : Nat := isqrtFrom n (n.log2 / 2 + 1) 0

/-- `exec_sqrt`: the address, then the operand's sign, then the destination (44_sqrt.md R145; 60_exceptions.md R166). -/
def execSqrt (reg addr : Nat) (s : State) : StepResult :=
  requireAddr s (effectiveAddress addr) <|
  if isNegative (s.readMem (effectiveAddress addr)) then
    .next (s.raiseDomain (effectiveAddress addr) (s.readMem (effectiveAddress addr)))
  else
    requireReg s reg <|
    .next (s.writeReg reg (zext32 (isqrt (s.readMem (effectiveAddress addr)).toNat))).complete

end Sys2Proof.Machine
end

