-- ==== Sys2Proof/Machine/Dispatch.lean ====
section
/-! DEFINITION. EXECUTE: the meaning of every instruction (41_control_fsm.md R114). The state given is the one in which the
instruction's word stands in `ir`. -/
namespace Sys2Proof.Machine

def exec (i : Instr) (s : State) : Host.Outcome State Fault Refusal :=
  match i with
  | .loadConst value reg => Sys2Proof.Machine.execLoadConst value reg s
  | .readMem reg addr => Sys2Proof.Machine.execReadMem reg addr s
  | .writeMem addr srcReg => Sys2Proof.Machine.execWriteMem addr srcReg s
  | .sqrt reg addr => Sys2Proof.Machine.execSqrt reg addr s

end Sys2Proof.Machine
end

