-- ==== Sys2Proof/Machine/Control.lean ====
section
/-! DEFINITION. The control FSM: the three phases of a RUNNING machine (41_control_fsm.md R110 to R116), and one whole
instruction as one change of state (R118). -/
namespace Sys2Proof.Machine

/-- What FETCH leaves: the word in `ir`, the phase DECODE (R111). -/
def State.fetched (s : State) (w : Word) : State := { s with ir := w, phase := .decode }

/-- What DECODE leaves for a known opcode: the instruction latched, the phase EXECUTE (R113). -/
def State.decoded (s : State) (i : Instr) : State := { s with latch := i, phase := .execute }

/-- FETCH (R111): halt when fewer than 4 bytes are left (R112), else take the word at `pc`. -/
def fetchPhase (s : State) : StepResult :=
  match fetch32 s.prog s.pc with
  | none => .next s.halt
  | some w => .next (s.fetched w)

/-- DECODE (R113): an unknown opcode faults, a known instruction is latched. -/
def decodePhase (s : State) : StepResult :=
  match decode s.ir with
  | .unknown _ => .next s.raiseUnknown
  | .known i => .next (s.decoded i)

/-- EXECUTE (R114): the rule of the latched instruction. -/
def executePhase (s : State) : StepResult := exec s.latch s

/-- The phase transition of a RUNNING machine (R110). -/
def phaseStep (s : State) : StepResult :=
  match s.phase with
  | .fetch => fetchPhase s
  | .decode => decodePhase s
  | .execute => executePhase s

/-- One transition of the FSM; HALTED and FAULTED are absorbing and have none (R115). -/
def tick (s : State) : StepResult :=
  match s.status with
  | .running => phaseStep s
  | .halted => .fault .alreadyHalted
  | .faulted _ _ => .fault .alreadyFaulted

/-- `k` transitions of the FSM, stopping where there is none. -/
def ticks : Nat → State → StepResult
  | 0, s => .next s
  | k + 1, s =>
    match tick s with
    | .next t => ticks k t
    | .fault f => .fault f
    | .refused r => .refused r

/-- One instruction of a RUNNING machine, fetched at `pc`, decoded and executed: the body of `step` (R118). -/
def stepRunning (s : State) : StepResult :=
  match fetch32 s.prog s.pc with
  | none => .next s.halt
  | some w =>
    match decode w with
    | .unknown _ => .next (s.fetched w).raiseUnknown
    | .known i => exec i ((s.fetched w).decoded i)

end Sys2Proof.Machine
end

