-- ==== Sys2Proof/Machine/Step.lean ====
section
/-! DEFINITION. The one-step function (41_control_fsm.md R117, R118) and the loading of one instruction word. -/
namespace Sys2Proof.Machine

/-- `step`: defined on RUNNING states; a HALTED or FAULTED state has no successor (R115, R118). -/
def step (s : State) : Host.Outcome State Fault Refusal :=
  match s.status with
  | .running => stepRunning s
  | .halted => .fault .alreadyHalted
  | .faulted _ _ => .fault .alreadyFaulted

/-- The state with a table word placed in the program buffer at `pc`, where the next step fetches. It stands for the
host's placing of the program (70_reset_and_hazards.md R194; notes/assumptions/2.md). -/
def State.withFetchWord (s : State) (nbits w : Nat) : State :=
  { s with prog := placeWord s.prog s.pc (tableWord nbits w) }

end Sys2Proof.Machine
end

