-- ==== Sys2Proof/Machine/Assembler.lean ====
section
/-! DEFINITION. The assembler's side of the contract (30_encoding.md R77 to R85). It is software (00_scope.md R4): no
definition of the step function depends on it. Operand values stand here after their coercion to natural numbers, which R81
leaves open (notes/assumptions/8.md). -/
namespace Sys2Proof.Machine

/-- The four opcodes, in the order in which R77 names them. -/
def commandOpcodes : List Opcode := [.loadConst, .readMem, .writeMem, .sqrt]

/-- The text of a command name, letter for letter (R77). -/
def commandName : Opcode → String
  | .loadConst => "LOAD_CONST"
  | .readMem => "READ_MEM"
  | .writeMem => "WRITE_MEM"
  | .sqrt => "SQRT"

/-- The opcode a `cmd` text names; `none` for every text but the four (R77, R82). -/
def commandOpcode (name : String) : Option Opcode := commandOpcodes.find? fun op => commandName op = name

/-- One element of the `program` list: the text of its `cmd` key and the operand keys that are present (R77 to R80). -/
structure Entry where
  cmd : String
  value : Option Nat := none
  reg : Option Nat := none
  addr : Option Nat := none
  srcReg : Option Nat := none
  offset : Option Nat := none
deriving DecidableEq, Repr

/-- The structured program description; `none` where the top-level list is missing or malformed (R78). -/
structure Document where
  program : Option (List Entry)
deriving DecidableEq, Repr

/-- Why assembly fails; positions count from 0 (notes/assumptions/9.md). -/
inductive AsmError where
  /-- "schema error": no top-level `program` list (R78). -/
  | schema
  /-- "missing field": a required operand key is absent (R79). -/
  | missingField (position : Nat) (field : FieldName)
  /-- "unknown command" (R82). -/
  | unknownCommand (position : Nat) (name : String)
  /-- The range/encoding error of an operand that does not fit (R83). -/
  | encoding (position : Nat) (e : PackError)
deriving DecidableEq, Repr

/-- A required operand key (R79). -/
def requireKey (position : Nat) (field : FieldName) : Option Nat → Except AsmError Nat
  | some v => .ok v
  | none => .error (.missingField position field)

/-- WRITE_MEM's address: `offset` if present, else `addr` (R80). -/
def Entry.writeAddress (e : Entry) : Option Nat := e.offset.or e.addr

/-- The IR record of an entry (R79, R82). DESIGN CHOICE, unsafe for claims about such entries: an operand key that belongs to another command
(`offset` on READ_MEM, `addr` on LOAD_CONST) is ignored; the spec says neither that nor that the entry is rejected
(notes/assumptions/15.md). -/
def entryInstr (position : Nat) (e : Entry) : Except AsmError Instr :=
  match commandOpcode e.cmd with
  | none => .error (.unknownCommand position e.cmd)
  | some .loadConst => do
    let reg ← requireKey position .reg e.reg
    let value ← requireKey position .value e.value
    pure (.loadConst value reg)
  | some .readMem => do
    let reg ← requireKey position .reg e.reg
    let addr ← requireKey position .addr e.addr
    pure (.readMem reg addr)
  | some .writeMem => do
    let srcReg ← requireKey position .srcReg e.srcReg
    let addr ← requireKey position .addr e.writeAddress
    pure (.writeMem addr srcReg)
  | some .sqrt => do
    let reg ← requireKey position .reg e.reg
    let addr ← requireKey position .addr e.addr
    pure (.sqrt reg addr)

/-- The word of an IR record, or the range/encoding error (R83). -/
def assembleInstr (position : Nat) (i : Instr) : Except AsmError Word :=
  match encode i with
  | .ok w => .ok w
  | .error e => .error (.encoding position e)

/-- The entries from a position on: one word each, in input order (R85). -/
def assembleEntries : Nat → List Entry → Except AsmError (List Byte)
  | _, [] => .ok []
  | position, e :: rest => do
    let i ← entryInstr position e
    let w ← assembleInstr position i
    let bytes ← assembleEntries (position + 1) rest
    pure (wordBytes w ++ bytes)

/-- The assembler: the whole byte buffer, or a failure before any byte is emitted (R78, R85). -/
def assemble (doc : Document) : Except AsmError (List Byte) :=
  match doc.program with
  | none => .error .schema
  | some entries => assembleEntries 0 entries

end Sys2Proof.Machine
end

