-- ==== Sys2Proof/Machine/HostMoves.lean ====
section
/-! DEFINITION. What the host does around a run (70_reset_and_hazards.md): reset, the run itself (41_control_fsm.md R119),
read-out and the memory dump. The host has no move while a run goes on but reset and ceasing to step (R195, R198). -/
namespace Sys2Proof.Machine

/-- Reset in any state, with the configuration and the program sampled at it; nothing survives it (70_reset_and_hazards.md
R190 to R192). -/
def hostReset (_ : State) (regCount memSize : Nat) (prog : List Byte) : State := State.resetWith regCount memSize prog

/-- At most `k` steps, fewer when the run is over before; a host's step budget is this prefix (41_control_fsm.md R124). -/
def runSteps : Nat → State → State
  | 0, s => s
  | k + 1, s =>
    match step s with
    | .next t => runSteps k t
    | .fault _ => s
    | .refused _ => s

/-- `execute(byte buffer, register count, memory size)` (41_control_fsm.md R119), with the bound of R120 as its fuel. -/
def execute (prog : List Byte) (regCount memSize : Nat) : State :=
  runSteps (prog.length / 4 + 1) (State.resetWith regCount memSize prog)

/-- What the host reads when a run is over (70_reset_and_hazards.md R199). -/
structure ReadOut where
  x : List Word
  mem : Memory
  pc : Nat
  status : Status
deriving DecidableEq, Repr

/-- Read-out: possible when HALTED or FAULTED, and it changes nothing (70_reset_and_hazards.md R199). -/
def readOut (s : State) : Option ReadOut :=
  match s.status with
  | .running => none
  | .halted => some ⟨s.x, s.mem, s.pc, s.status⟩
  | .faulted _ _ => some ⟨s.x, s.mem, s.pc, s.status⟩

/-- The dump's own failure, no fault of the core (60_exceptions.md R165). -/
inductive DumpError where
  | dumpRange
deriving DecidableEq, Repr

/-- `dump(mem, start, end)`: the words of the inclusive range of addresses, ascending (70_reset_and_hazards.md R203). -/
def dumpWords (mem : Memory) (memSize : Nat) (first last : Int) : Except DumpError (List (Nat × Word)) :=
  if first > last ∨ first < 0 ∨ last ≥ memSize then .error .dumpRange
  else .ok ((List.range' first.toNat (last - first + 1).toNat).map fun a => (a, mem.read a))

/-- The host's dump, a projection of the read-out: while the run goes on there is no such move (70_reset_and_hazards.md R195,
R198, R203; 41_control_fsm.md R124). -/
def dump (s : State) (first last : Int) : Option (Except DumpError (List (Nat × Word))) :=
  (readOut s).map fun r => dumpWords r.mem s.memSize first last

end Sys2Proof.Machine
end

