-- ==== Sys2Proof/Safety.lean ====
section
/-! DEFINITION. The terms claims use: when a run is over and when it is a success, what a step may leave unchanged, what
taking a fault means, and the invariants of the machine. -/
namespace Sys2Proof.Machine

/-- The run is over: HALTED or FAULTED (41_control_fsm.md R125). -/
def State.runIsOver (s : State) : Prop := s.status = .halted ∨ ∃ c r, s.status = .faulted c r

/-- The only successful end (41_control_fsm.md R125; the premise `EndsHalted` of 70_reset_and_hazards.md R207). -/
def State.endsHalted (s : State) : Prop := s.status = .halted

/-- A step is safe when the machine takes it and takes no fault in it. -/
def SafeStep (s : State) : Prop := ∃ t, step s = .next t ∧ (t.status = .running ∨ t.status = .halted)

/-- The launch premise `ResetState` (70_reset_and_hazards.md R207). -/
def ResetState (s : State) (regCount memSize : Nat) : Prop := s = State.resetWith regCount memSize s.prog

/-- A step with a next state goes from the instruction `i`, whose word is fetched at `pc` (41_control_fsm.md R118). -/
def Fetches (s : State) (i : Instr) : Prop := ∃ w, fetch32 s.prog s.pc = some w ∧ decode w = .known i

/-- The arguments of the run are the same: `REG_COUNT`, `MEM_SIZE` and `PROG` (10_state.md R21). -/
def SameArguments (s t : State) : Prop := t.regCount = s.regCount ∧ t.memSize = s.memSize ∧ t.prog = s.prog

/-- Every register but one reads as before. -/
def OnlyRegChanged (r : Nat) (s t : State) : Prop := ∀ i, i ≠ r → t.readReg i = s.readReg i

/-- Every memory word but one reads as before. -/
def OnlyWordChanged (a : Nat) (s t : State) : Prop := ∀ b, b ≠ a → t.readMem b = s.readMem b

/-- Every register reads as before. -/
def SameRegs (s t : State) : Prop := ∀ i, t.readReg i = s.readReg i

/-- Every memory word reads as before. -/
def SameMem (s t : State) : Prop := ∀ a, t.readMem a = s.readMem a

/-- An instruction has completed: `pc` is 4 further on, the FSM is back in FETCH, and the status, the two other latches and
the arguments of the run are as before (41_control_fsm.md R114). -/
def Completed (s t : State) : Prop :=
  t.pc = s.pc + 4 ∧ t.phase = .fetch ∧ t.status = s.status ∧ t.ir = s.ir ∧ t.latch = s.latch ∧ SameArguments s t

/-- The result is the state `s` with nothing changed but `status`, which is FAULTED with this cause and the record of
60_exceptions.md R171. -/
def TakesFault (s : State) (r : StepResult) (cause : FaultCause) (space : FaultSpace) (index : Nat) (value : Word) :
    Prop :=
  ∃ info, r = .next { s with status := .faulted cause info } ∧
    info.faultPc = s.pc ∧ info.faultWord = s.ir ∧ info.faultOp = s.ir.extractLsb' 0 6 ∧
    info.faultSpace = space ∧ info.faultIndex.toNat = index ∧ info.faultValue = value

/-- `pc` is a multiple of 4 and at most `PROG_LEN` (10_state.md R29). -/
def PcInv (s : State) : Prop := s.pc % 4 = 0 ∧ s.pc ≤ s.progLen

/-- Data memory keeps its canonical form and lists no address at or beyond `MEM_SIZE` (20_memory.md R51). -/
def MemInv (s : State) : Prop := s.mem.wf ∧ s.mem.below s.memSize

/-- Every register and every data-memory word is below 2^20 (10_state.md R27). -/
def BoundInv (s : State) : Prop := (∀ i, (s.readReg i).toNat < 2 ^ 20) ∧ ∀ a, (s.readMem a).toNat < 2 ^ 20

/-- What the latches hold in the middle of an instruction (41_control_fsm.md R111, R113). -/
def LatchInv (s : State) : Prop :=
  s.status = .running →
    (s.phase = .decode → fetch32 s.prog s.pc = some s.ir) ∧
    (s.phase = .execute → fetch32 s.prog s.pc = some s.ir ∧ decode s.ir = .known s.latch)

/-- The fault record tells the truth about the state the machine stopped in (60_exceptions.md R162 to R164, R171). -/
def RecordInv (s : State) : Prop :=
  ∀ c r, s.status = .faulted c r →
    r.faultPc = s.pc ∧ r.faultOp = r.faultWord.extractLsb' 0 6 ∧ fetch32 s.prog s.pc = some r.faultWord ∧
    match c with
    | .unknownOpcode =>
      decode r.faultWord = .unknown r.faultOp ∧ r.faultSpace = .none ∧ r.faultIndex = 0 ∧ r.faultValue = 0
    | .indexOutOfRange =>
      (∃ i, decode r.faultWord = .known i ∧
        (r.faultSpace = .reg ∧ r.faultIndex.toNat = i.regOperand ∧ s.regCount ≤ i.regOperand ∨
          r.faultSpace = .mem ∧ i.addrOperand = some r.faultIndex.toNat ∧ s.memSize ≤ r.faultIndex.toNat)) ∧
      r.faultValue = 0
    | .domainError =>
      (∃ reg, decode r.faultWord = .known (.sqrt reg r.faultIndex.toNat)) ∧ r.faultSpace = .mem ∧
      r.faultIndex.toNat < s.memSize ∧ r.faultValue = s.readMem r.faultIndex.toNat ∧ 2 ^ 31 ≤ r.faultValue.toNat

/-- The step from `s` is a WRITE_MEM to `a` that completes, and `v` is the value of its source register. -/
def StoresTo (s : State) (a : Nat) (v : Word) : Prop :=
  ∃ srcReg t, Fetches s (.writeMem a srcReg) ∧ step s = .next t ∧ t.status = .running ∧ v = s.readReg srcReg

end Sys2Proof.Machine
end

