-- ==== Sys2Proof/Certificates/Slice0/Obligations.lean ====
section
/-! DEFINITION. The statements for the provers. Each docstring names the rule or section of spec/ it formalises, and says
where a clause rests on a decision the spec marks as its own (92_eei_decisions.md) or on a choice of this model. -/

open Sys2Proof Sys2Proof.Machine

/-! ### Encoding and decoding -/

/-- 40_decoder.md R98 ("For each opcode and all field values within their widths, decode(pack(op, fields)) returns that opcode
with those fields") with the source's instance, the 4 bytes of `LOAD_CONST reg=0 value=123`. -/
def Obligations.DecodePackRoundTrip : Prop :=
  (∀ i : Instr, i.wellFormed = true → ∃ w, encode i = .ok w ∧ decode w = .known i ∧ fetch32 (wordBytes w) 0 = some w) ∧
  fetch32 [0xDD, 0x1E, 0x00, 0x00] 0 = some 0x00001EDD ∧
  decode 0x00001EDD = .known (.loadConst 123 0) ∧ opcodeField 0x00001EDD = 29

/-- 30_encoding.md R74 (b) and (c), which the spec derives from R68 (its decision D8): a word of known opcode packs back to
itself with its unused bits cleared; words decode alike exactly when they agree but for unused bits; each LOAD_CONST
instruction has exactly 2 words and each other instruction exactly 4. -/
def Obligations.PackDecodeClearsUnusedBits : Prop :=
  (∀ (w : Word) (i : Instr), decode w = .known i →
    encode i = .ok (clearUnused w) ∧ (encode i = .ok w ↔ canonical w = true)) ∧
  (∀ (v w : Word) (i : Instr), decode v = .known i → (decode w = .known i ↔ (∃ j, decode w = .known j) ∧
    clearUnused w = clearUnused v)) ∧
  (∀ i : Instr, i.wellFormed = true → ∃ l : List Word, l.Nodup ∧ l.length = 2 ^ i.opcode.unusedBits ∧
    ∀ w, decode w = .known i ↔ w ∈ l)

/-- 30_encoding.md R72: pack is the union of the opcode and the shifted fields, written out for the four opcodes; OR and
addition give the same word; the result is below 2^31 for LOAD_CONST and below 2^30 for the others; a field that does not
fit is an error. -/
def Obligations.PackIsUnionOfShiftedFields : Prop :=
  (∀ (op : Opcode) (b c : Nat), b < 2 ^ op.layout.1.width → c < 2 ^ op.layout.2.width →
    ∃ w, pack op b c = .ok w ∧
      w.toNat = op.code.toNat ||| b <<< op.layout.1.offset ||| c <<< op.layout.2.offset ∧
      w.toNat = op.code.toNat + b * 2 ^ op.layout.1.offset + c * 2 ^ op.layout.2.offset ∧
      w.toNat < 2 ^ (32 - op.unusedBits)) ∧
  (∀ (op : Opcode) (b c : Nat), (2 ^ op.layout.1.width ≤ b ∨ 2 ^ op.layout.2.width ≤ c) → ∃ e, pack op b c = .error e) ∧
  (∀ value reg, value < 2 ^ 20 → reg < 2 ^ 5 →
    ∃ w, encode (.loadConst value reg) = .ok w ∧ w.toNat = (29 ||| value <<< 6 ||| reg <<< 26) ∧ w.toNat < 2 ^ 31) ∧
  (∀ reg addr, reg < 2 ^ 5 → addr < 2 ^ 19 →
    (∃ w, encode (.readMem reg addr) = .ok w ∧ w.toNat = (4 ||| reg <<< 6 ||| addr <<< 11) ∧ w.toNat < 2 ^ 30) ∧
    (∃ w, encode (.writeMem addr reg) = .ok w ∧ w.toNat = (43 ||| addr <<< 6 ||| reg <<< 25) ∧ w.toNat < 2 ^ 30) ∧
    (∃ w, encode (.sqrt reg addr) = .ok w ∧ w.toNat = (2 ||| reg <<< 6 ||| addr <<< 11) ∧ w.toNat < 2 ^ 30))

/-- 30_encoding.md R73: pack accepts an instruction exactly when each operand is below `2^width`, so the largest accepted
values are 1048575, 31 and 524287 and the smallest rejected 1048576, 32 and 524288; what is accepted is never truncated. -/
def Obligations.PackNeverTruncates : Prop :=
  (∀ i : Instr, (∃ w, encode i = .ok w) ↔ i.wellFormed = true) ∧
  (∀ (op : Opcode) (b c : Nat) (w : Word), pack op b c = .ok w →
    opcodeField w = op.code ∧ op.layout.1.extract w = b ∧ op.layout.2.extract w = c) ∧
  (∀ value reg, (∃ w, encode (.loadConst value reg) = .ok w) ↔ value ≤ 1048575 ∧ reg ≤ 31) ∧
  (∀ reg addr, (∃ w, encode (.readMem reg addr) = .ok w) ↔ reg ≤ 31 ∧ addr ≤ 524287) ∧
  (∀ addr srcReg, (∃ w, encode (.writeMem addr srcReg) = .ok w) ↔ addr ≤ 524287 ∧ srcReg ≤ 31) ∧
  (∀ reg addr, (∃ w, encode (.sqrt reg addr) = .ok w) ↔ reg ≤ 31 ∧ addr ≤ 524287)

/-- 40_decoder.md R92: the decode function, case by case, with the slices written as bit ranges. -/
def Obligations.DecodeDispatchesOnLowSixBits : Prop :=
  ∀ w : Word,
    (w.extractLsb' 0 6 = 29 →
      decode w = .known (.loadConst (w.extractLsb' 6 20).toNat (w.extractLsb' 26 5).toNat)) ∧
    (w.extractLsb' 0 6 = 4 →
      decode w = .known (.readMem (w.extractLsb' 6 5).toNat (w.extractLsb' 11 19).toNat)) ∧
    (w.extractLsb' 0 6 = 43 →
      decode w = .known (.writeMem (w.extractLsb' 6 19).toNat (w.extractLsb' 25 5).toNat)) ∧
    (w.extractLsb' 0 6 = 2 →
      decode w = .known (.sqrt (w.extractLsb' 6 5).toNat (w.extractLsb' 11 19).toNat)) ∧
    (w.extractLsb' 0 6 ≠ 29 → w.extractLsb' 0 6 ≠ 4 → w.extractLsb' 0 6 ≠ 43 → w.extractLsb' 0 6 ≠ 2 →
      decode w = .unknown (w.extractLsb' 0 6))

/-- 40_decoder.md R94: each field of a decoded instruction is the word shifted right and masked, as the table of R94 gives
shift and mask, and every field is below `2^width`. -/
def Obligations.DecodedFieldsAreShiftAndMask : Prop :=
  ∀ (w : Word) (i : Instr), decode w = .known i → i.wellFormed = true ∧
    match i with
    | .loadConst value reg => value = ((w >>> 6) &&& 0xFFFFF).toNat ∧ reg = ((w >>> 26) &&& 0x1F).toNat
    | .readMem reg addr => reg = ((w >>> 6) &&& 0x1F).toNat ∧ addr = ((w >>> 11) &&& 0x7FFFF).toNat
    | .writeMem addr srcReg => addr = ((w >>> 6) &&& 0x7FFFF).toNat ∧ srcReg = ((w >>> 25) &&& 0x1F).toNat
    | .sqrt reg addr => reg = ((w >>> 6) &&& 0x1F).toNat ∧ addr = ((w >>> 11) &&& 0x7FFFF).toNat

/-- 40_decoder.md R96, which rests on the spec's decision D8: the unused high bits are not read. -/
def Obligations.UnusedBitsAreNotRead : Prop :=
  ∀ w : Word,
    (w.extractLsb' 0 6 = 29 → decode w = decode (w &&& 0x7FFFFFFF)) ∧
    (w.extractLsb' 0 6 = 2 ∨ w.extractLsb' 0 6 = 4 ∨ w.extractLsb' 0 6 = 43 → decode w = decode (w &&& 0x3FFFFFFF))

/-- 40_decoder.md R99 (derived there from R92): a field of an opcode's layout depends on its own slice only, and a READ_MEM
and a SQRT word that differ only in the opcode decode to equal `reg` and equal `addr`. -/
def Obligations.FieldsAreIndependent : Prop :=
  (∀ (f : Field) (v w : Word), (∀ k, f.offset ≤ k → k < f.offset + f.width → v.getLsbD k = w.getLsbD k) →
    f.extract v = f.extract w) ∧
  (∀ v w : Word, (∀ k, 6 ≤ k → v.getLsbD k = w.getLsbD k) → v.extractLsb' 0 6 = 4 → w.extractLsb' 0 6 = 2 →
    ∃ reg addr, decode v = .known (.readMem reg addr) ∧ decode w = .known (.sqrt reg addr))

/-- 40_decoder.md R100 (derived there from R92): the flattened outputs agree with `decode` wherever they mean something, at
most one of the four selectors is set, and `valid` says whether the opcode is known. -/
def Obligations.FlatDecoderAgreesWithDecode : Prop :=
  ∀ w : Word,
    let f := flatDecode w
    (f.valid = true ↔ ∃ i, decode w = .known i) ∧
    (f.isLc = true ↔ ∃ value reg, decode w = .known (.loadConst value reg) ∧ value = f.imm.toNat ∧ reg = f.ridx.toNat) ∧
    (f.isRd = true ↔ ∃ reg addr, decode w = .known (.readMem reg addr) ∧ reg = f.ridx.toNat ∧ addr = f.maddr.toNat) ∧
    (f.isWr = true ↔ ∃ addr src, decode w = .known (.writeMem addr src) ∧ addr = f.maddr.toNat ∧ src = f.ridx.toNat) ∧
    (f.isSq = true ↔ ∃ reg addr, decode w = .known (.sqrt reg addr) ∧ reg = f.ridx.toNat ∧ addr = f.maddr.toNat) ∧
    [f.isLc, f.isRd, f.isWr, f.isSq].count true ≤ 1

/-- 30_encoding.md R76: a word is canonical exactly when it is in the image of pack. -/
def Obligations.CanonicalWordsAreThePackedWords : Prop :=
  ∀ w : Word, canonical w = true ↔ ∃ i, encode i = .ok w

/-- The ten decodings of 40_decoder.md R101, words written out in the spec; the last two rest on its decision D8. -/
def Obligations.SampleWordsDecode : Prop :=
  decode 0x00001EDD = .known (.loadConst 123 0) ∧
  decode 0x7FFFFFDD = .known (.loadConst 1048575 31) ∧
  decode 0x0000322B = .known (.writeMem 200 0) ∧
  decode 0x00064042 = .known (.sqrt 1 200) ∧
  decode 0x07FFFFC4 = .known (.readMem 31 65535) ∧
  decode 0x3FFFFFEB = .known (.writeMem 524287 31) ∧
  decode 0x00000000 = .unknown 0 ∧
  decode 0xFFFFFFFF = .unknown 63 ∧
  decode 0x80001EDD = .known (.loadConst 123 0) ∧
  decode 0xFFFFFFC4 = .known (.readMem 31 524287)

/-- 20_memory.md R41: the fetched word is the OR of the four shifted bytes, the first byte holding bits 7:0 and the last bits
31:24, and it is defined only when `p + 4 ≤ PROG_LEN`. -/
def Obligations.FetchAssemblesLittleEndian : Prop :=
  ∀ (prog : List Byte) (p : Nat),
    (∀ b0 b1 b2 b3 : Byte, prog[p]? = some b0 → prog[p + 1]? = some b1 → prog[p + 2]? = some b2 → prog[p + 3]? = some b3 →
      ∃ w, fetch32 prog p = some w ∧
        w.toNat = b0.toNat ||| b1.toNat <<< 8 ||| b2.toNat <<< 16 ||| b3.toNat <<< 24 ∧
        w.extractLsb' 0 8 = b0 ∧ w.extractLsb' 8 8 = b1 ∧ w.extractLsb' 16 8 = b2 ∧ w.extractLsb' 24 8 = b3) ∧
    ((∃ w, fetch32 prog p = some w) ↔ p + 4 ≤ prog.length)

/-- 30_encoding.md R75: a word is written as its four bytes, least significant first, and reading anywhere in a buffer is the
inverse. -/
def Obligations.SerialisedWordsFetchBack : Prop :=
  (∀ w : Word, (wordBytes w).map BitVec.toNat =
    [w.toNat % 2 ^ 8, w.toNat / 2 ^ 8 % 2 ^ 8, w.toNat / 2 ^ 16 % 2 ^ 8, w.toNat / 2 ^ 24]) ∧
  (∀ (before after : List Byte) (w : Word), fetch32 (before ++ wordBytes w ++ after) before.length = some w) ∧
  encode (.loadConst 123 0) = .ok 7901 ∧ wordBytes 7901 = [0xDD, 0x1E, 0x00, 0x00]

/-! ### Reset -/

/-- The reset state of 10_state.md R34 and 70_reset_and_hazards.md R190, for every configuration and program, whatever the state
before; `status` is the spec's decision D5. The values of `ir` and `latch` after reset are the model's choice
(notes/assumptions/1.md) and not stated. The defaults 32 and 65536 are those of 00_scope.md R6. -/
def Obligations.ResetLeavesZeroedState : Prop :=
  (∀ (s : State) (regCount memSize : Nat) (prog : List Byte),
    let r := hostReset s regCount memSize prog
    r.regCount = regCount ∧ r.memSize = memSize ∧ r.prog = prog ∧ (∀ i, r.readReg i = 0) ∧ (∀ a, r.readMem a = 0) ∧
    r.pc = 0 ∧ r.status = .running ∧ r.status.causeCode = 0 ∧ r.status.info = FaultRecord.zero ∧ r.phase = .fetch) ∧
  State.reset.regCount = 32 ∧ State.reset.memSize = 65536 ∧ (∀ i, State.reset.readReg i = 0) ∧
  (∀ a, State.reset.readMem a = 0) ∧ State.reset.pc = 0 ∧ State.reset.status = .running

/-- Every invariant below holds at reset, for every configuration and program. -/
def Obligations.ResetMeetsTheInvariants : Prop :=
  ∀ (regCount memSize : Nat) (prog : List Byte),
    let r := State.resetWith regCount memSize prog
    PcInv r ∧ MemInv r ∧ BoundInv r ∧ LatchInv r ∧ RecordInv r

/-! ### The step -/

/-- A step runs the decoded instruction (41_control_fsm.md R118): when the word at `pc` decodes to `i`, the step is `exec i` on
the state in which that word and `i` are latched and the phase is EXECUTE, everything else as it was. R118 speaks of registers,
memory, `pc` and status only: that `exec` is handed the latches and the phase EXECUTE, and that the fetch ignores `phase`, is the
model's choice (notes/assumptions/5.md and 6.md), over the FSM of the spec's decision D6. -/
def Obligations.StepRunsDecodedInstruction : Prop :=
  ∀ (s : State) (w : Word) (i : Instr), s.status = .running → fetch32 s.prog s.pc = some w → decode w = .known i →
    step s = exec i { s with ir := w, latch := i, phase := .execute }

/-- The halt of 41_control_fsm.md R112: with fewer than 4 bytes left the status becomes HALTED and nothing else changes; this
is the only way into HALTED, and a buffer of 0 to 3 bytes halts at once in the reset state. -/
def Obligations.StepHaltsWhenFewerThanFourBytesRemain : Prop :=
  (∀ s : State, s.status = .running → s.prog.length < s.pc + 4 → step s = .next { s with status := .halted }) ∧
  (∀ s t : State, step s = .next t → t.status = .halted → s.prog.length < s.pc + 4 ∧ t = { s with status := .halted }) ∧
  (∀ (prog : List Byte) (regCount memSize : Nat), prog.length ≤ 3 →
    step (State.resetWith regCount memSize prog) =
      .next { State.resetWith regCount memSize prog with status := .halted })

/-- UnknownOpcode (60_exceptions.md R162, R170): a word whose `w[5:0]` is not 2, 4, 29 or 43 stops the machine with cause 1 and
its record; registers, memory and `pc` keep their values. The record's layout and the kept `pc` are the spec's decisions D10
and D12. -/
def Obligations.UnknownOpcodeStopsTheMachine : Prop :=
  ∀ (s : State) (w : Word), s.status = .running → fetch32 s.prog s.pc = some w →
    w.extractLsb' 0 6 ∉ [(2 : BitVec 6), 4, 29, 43] →
    ∃ t info, step s = .next t ∧ t.status = .faulted .unknownOpcode info ∧ t.status.stateCode = 2 ∧ t.status.causeCode = 1 ∧
      info = ⟨s.pc, w, w.extractLsb' 0 6, .none, 0, 0⟩ ∧
      t.x = s.x ∧ t.mem = s.mem ∧ t.pc = s.pc ∧ SameArguments s t

/-- 41_control_fsm.md R115 and R118: every RUNNING state has a successor, and HALTED and FAULTED states have none, in the step
and in the FSM alike. -/
def Obligations.ExactlyRunningStatesHaveASuccessor : Prop :=
  ∀ s : State, ((∃ t, step s = .next t) ↔ s.status = .running) ∧ ((∃ t, tick s = .next t) ↔ s.status = .running) ∧
    (∀ r, step s ≠ .refused r) ∧
    (s.runIsOver → (∃ f, step s = .fault f) ∧ ∀ k, runSteps k s = s)

/-- 10_state.md R28: `pc` starts at 0, an instruction that completes adds 4, and nothing else ever changes it. That a fault
keeps `pc` is the spec's decision D12. -/
def Obligations.PcAdvancesByFourOrStays : Prop :=
  (∀ s t : State, step s = .next t →
    (t.status = .running ∧ t.pc = s.pc + 4) ∨ (t.status ≠ .running ∧ t.pc = s.pc)) ∧
  ∀ (regCount memSize : Nat) (prog : List Byte), (State.resetWith regCount memSize prog).pc = 0

/-- 10_state.md R29 (derived there): every step keeps `pc` a multiple of 4 and at most `PROG_LEN`. -/
def Obligations.StepKeepsPcAlignedAndInBuffer : Prop :=
  ∀ s t : State, PcInv s → step s = .next t → PcInv t

/-- Every step keeps the memory's canonical form, with no listed word at or beyond `MEM_SIZE` (20_memory.md R51: memory is not
extended). The canonical form is the model's (notes/assumptions/3.md). -/
def Obligations.StepKeepsMemoryCanonical : Prop :=
  ∀ s t : State, MemInv s → step s = .next t → MemInv t

/-- 10_state.md R27 (derived there): every step keeps every register and every memory word below 2^20. -/
def Obligations.StepKeepsValuesBelowTwoPow20 : Prop :=
  ∀ s t : State, BoundInv s → step s = .next t → BoundInv t

/-- 60_exceptions.md R160 to R164, R171: whatever the state, the record of a fault a step takes tells the truth about the
instruction at `pc` and about the state; the record's layout is the spec's decision D12. -/
def Obligations.FaultRecordTellsTheTruth : Prop :=
  ∀ s t : State, step s = .next t → RecordInv t

/-- 10_state.md R21, 20_memory.md R56, 70_reset_and_hazards.md R191: no step changes the program buffer or the sizes, so none
is changed in a whole run. -/
def Obligations.ProgramAndSizesAreConstant : Prop :=
  (∀ s t : State, step s = .next t → SameArguments s t) ∧
  (∀ (k : Nat) (s : State), SameArguments s (runSteps k s))

/-- 60_exceptions.md R170, R172: a step that takes a fault has written no register, no memory word and not the `pc`; the three
causes are reached from the state just before the faulting instruction. The kept `pc` is the spec's decision D12. -/
def Obligations.FaultsArePrecise : Prop :=
  ∀ (s t : State) (c : FaultCause) (info : FaultRecord), step s = .next t → t.status = .faulted c info →
    t.x = s.x ∧ t.mem = s.mem ∧ t.pc = s.pc ∧ SameArguments s t ∧ info.faultPc = s.pc ∧
    fetch32 s.prog s.pc = some info.faultWord ∧ info.faultOp = info.faultWord.extractLsb' 0 6 ∧ ∀ k, runSteps k t = t

/-- The host's view of `status` (10_state.md R32, 60_exceptions.md R161, R171): cause and record are zero exactly as long as no
fault is taken, and the numbers are those of the spec's decisions D5, D10 and D12. -/
def Obligations.StatusOutputsFollowTheTables : Prop :=
  (∀ st : Status, (st.causeCode = 0 ↔ st.stateCode ≠ 2) ∧ (st.causeCode = 0 → st.info = FaultRecord.zero)) ∧
  Status.running.stateCode = 0 ∧ Status.halted.stateCode = 1 ∧
  (∀ c r, (Status.faulted c r).stateCode = 2 ∧ (Status.faulted c r).causeCode = c.code ∧ (Status.faulted c r).info = r) ∧
  FaultCause.unknownOpcode.code = 1 ∧ FaultCause.indexOutOfRange.code = 2 ∧ FaultCause.domainError.code = 3 ∧
  FaultSpace.none.code = 0 ∧ FaultSpace.reg.code = 1 ∧ FaultSpace.mem.code = 2

/-! ### The control FSM -/

/-- 41_control_fsm.md R117 (derived there): from FETCH, one, two or three transitions of the FSM give exactly the step, the
states between are RUNNING in another phase, and a RUNNING result is in FETCH again. The FSM is the spec's decision D6; that the
step agrees with it on `ir`, `latch` and `phase` too is the model's choice (notes/assumptions/5.md). -/
def Obligations.FsmRefinesStep : Prop :=
  ∀ s : State, s.status = .running → s.phase = .fetch →
    ∃ n, 1 ≤ n ∧ n ≤ 3 ∧ ticks n s = step s ∧
      (∀ m, 0 < m → m < n → ∃ u, ticks m s = .next u ∧ u.status = .running ∧ u.phase ≠ .fetch ∧
        u.x = s.x ∧ u.mem = s.mem ∧ u.pc = s.pc) ∧
      (∀ t, step s = .next t → t.status = .running → t.phase = .fetch)

/-- 41_control_fsm.md R111, R113: every transition keeps it true that in DECODE `ir` is the word at `pc` and that in EXECUTE the
latched instruction is its decoding. -/
def Obligations.TickKeepsLatchesCoherent : Prop :=
  ∀ s t : State, LatchInv s → tick s = .next t → LatchInv t

/-! ### Runs -/

/-- 41_control_fsm.md R120 (derived there): every run ends within `floor(PROG_LEN / 4) + 1` steps, HALTED with
`pc = 4 * floor(PROG_LEN / 4)` (10_state.md R30) or FAULTED at the offset of a whole word. -/
def Obligations.EveryRunEnds : Prop :=
  ∀ (prog : List Byte) (regCount memSize : Nat),
    let t := execute prog regCount memSize
    t.runIsOver ∧ (t.endsHalted → t.pc = 4 * (prog.length / 4)) ∧
    (¬ t.endsHalted → t.pc % 4 = 0 ∧ t.pc + 4 ≤ prog.length)

/-- 41_control_fsm.md R122 (derived there): while a run from reset is RUNNING, the number of steps made is `pc / 4`, so no word
is skipped, repeated or taken out of order. -/
def Obligations.StepsMadeIsPcOverFour : Prop :=
  ∀ (prog : List Byte) (regCount memSize k : Nat),
    (runSteps k (State.resetWith regCount memSize prog)).status = .running →
    (runSteps k (State.resetWith regCount memSize prog)).pc = 4 * k

/-- 70_reset_and_hazards.md R207: from the premise `ResetState` alone follow the value bound of 10_state.md R27 and that no run
meets a DomainError (44_sqrt.md R147). -/
def Obligations.DomainErrorUnreachableFromReset : Prop :=
  ∀ (s : State) (regCount memSize k : Nat), ResetState s regCount memSize →
    BoundInv (runSteps k s) ∧ ∀ info, (runSteps k s).status ≠ .faulted .domainError info

/-- 20_memory.md R45: with fewer than 4 bytes left execution stops without an error; the 1 to 3 trailing bytes are never
fetched: a run over the buffer with them ends in the same state as a run without them, but for the buffer itself; and a buffer
of 0 to 3 bytes ends normally with the reset state. -/
def Obligations.TrailingBytesAreIgnored : Prop :=
  (∀ (prog extra : List Byte) (regCount memSize : Nat), prog.length % 4 = 0 → extra.length ≤ 3 →
    execute (prog ++ extra) regCount memSize = { execute prog regCount memSize with prog := prog ++ extra }) ∧
  (∀ s : State, s.status = .running → s.prog.length < s.pc + 4 → ∃ t, step s = .next t ∧ t.endsHalted) ∧
  (∀ (prog : List Byte) (regCount memSize : Nat), prog.length ≤ 3 →
    execute prog regCount memSize = { State.resetWith regCount memSize prog with status := .halted })

/-- 41_control_fsm.md R121, R122, 20_memory.md R40: a step reads of the program buffer only the four bytes at `pc`. -/
def Obligations.StepReadsOnlyTheFetchedBytes : Prop :=
  ∀ (s t : State) (prog : List Byte), fetch32 prog s.pc = fetch32 s.prog s.pc → step s = .next t →
    step { s with prog := prog } = .next { t with prog := prog }

/-- 20_memory.md R53 (a): along every run from reset, a memory word holds the value the most recent completed WRITE_MEM to it
stored, or 0 if there was none. -/
def Obligations.MemoryHoldsTheMostRecentStore : Prop :=
  ∀ (prog : List Byte) (regCount memSize k a : Nat),
    let at' := fun j => runSteps j (State.resetWith regCount memSize prog)
    (∃ j v, j < k ∧ StoresTo (at' j) a v ∧ (at' k).readMem a = v ∧
      ∀ l, j < l → l < k → ∀ v', ¬ StoresTo (at' l) a v') ∨
    ((∀ j, j < k → ∀ v, ¬ StoresTo (at' j) a v) ∧ (at' k).readMem a = 0)

/-! ### Whole-machine rules -/

/-- 10_state.md R25, 20_memory.md R40, R47: only a WRITE_MEM to an address changes the word there, and it stores the value its
source register held. -/
def Obligations.OnlyWriteMemChangesMemory : Prop :=
  ∀ (s t : State) (a : Nat), step s = .next t → t.readMem a ≠ s.readMem a →
    ∃ srcReg, Fetches s (.writeMem a srcReg) ∧ t.readMem a = s.readReg srcReg ∧ a < s.memSize ∧ srcReg < s.regCount ∧
      SameRegs s t

/-- 10_state.md R25: only LOAD_CONST, READ_MEM and SQRT write a register, each its `reg` field's only, and none of them writes
memory. -/
def Obligations.OnlyDestinationRegistersChange : Prop :=
  ∀ (s t : State) (r : Nat), step s = .next t → t.readReg r ≠ s.readReg r →
    ((∃ value, Fetches s (.loadConst value r)) ∨ ∃ addr, Fetches s (.readMem r addr) ∨ Fetches s (.sqrt r addr)) ∧
    r < s.regCount ∧ OnlyRegChanged r s t ∧ SameMem s t

/-- 00_scope.md R7 (derived there): a register with index 32 or more and a memory word at 2^19 or above are changed by no
step, whatever the sizes. -/
def Obligations.UnencodableIndicesNeverChange : Prop :=
  ∀ s t : State, step s = .next t →
    (∀ i, 32 ≤ i → t.readReg i = s.readReg i) ∧ (∀ a, 2 ^ 19 ≤ a → t.readMem a = s.readMem a)

/-- 60_exceptions.md R160, R163, R164 with 41_control_fsm.md R118: the step of a fetched instruction is taken without a fault
exactly when its register exists, its memory word exists, and, for SQRT, the operand is not negative. The sign is the spec's
decision D2. -/
def Obligations.StepIsSafeExactlyWhenOperandsAreInRange : Prop :=
  ∀ (s : State) (i : Instr), s.status = .running → Fetches s i →
    (SafeStep s ↔ i.regOperand < s.regCount ∧ (∀ a, i.addrOperand = some a → a < s.memSize) ∧
      ∀ reg a, i = .sqrt reg a → (s.readMem a).toNat < 2 ^ 31)

/-! ### The instructions -/

/-- LOAD_CONST completes and loads the constant (42_load_const.md R130, R131 (a)): the whole register becomes the value, zero
extended; every other register and all of memory read as before. Zero extension is the spec's decision D9. -/
def Obligations.LoadConstLoadsTheConstant : Prop :=
  ∀ (s : State) (value reg : Nat), value < 2 ^ 20 → reg < s.regCount →
    ∃ t, exec (.loadConst value reg) s = .next t ∧ (t.readReg reg).toNat = value ∧
      OnlyRegChanged reg s t ∧ SameMem s t ∧ Completed s t

/-- LOAD_CONST faults exactly when the register does not exist (60_exceptions.md R163). -/
def Obligations.LoadConstFaultsOnMissingRegister : Prop :=
  ∀ (s : State) (value reg : Nat), reg < 2 ^ 5 → s.regCount ≤ reg →
    TakesFault s (exec (.loadConst value reg) s) .indexOutOfRange .reg reg 0

/-- READ_MEM completes and copies the whole word (43_memory_transfer.md R135, R136 (a)); memory and every other register read
as before. -/
def Obligations.ReadMemCopiesTheWord : Prop :=
  ∀ (s : State) (reg addr : Nat), addr < s.memSize → reg < s.regCount →
    ∃ t, exec (.readMem reg addr) s = .next t ∧ t.readReg reg = s.readMem addr ∧
      OnlyRegChanged reg s t ∧ SameMem s t ∧ Completed s t

/-- READ_MEM faults on a missing word, and else on a missing register (60_exceptions.md R163, R166). The order is the spec's
decision D11. -/
def Obligations.ReadMemFaultsInOrder : Prop :=
  ∀ (s : State) (reg addr : Nat), reg < 2 ^ 5 → addr < 2 ^ 19 →
    (s.memSize ≤ addr → TakesFault s (exec (.readMem reg addr) s) .indexOutOfRange .mem addr 0) ∧
    (addr < s.memSize → s.regCount ≤ reg → TakesFault s (exec (.readMem reg addr) s) .indexOutOfRange .reg reg 0)

/-- WRITE_MEM completes and stores the whole register at its effective address (43_memory_transfer.md R137, R138 (a), R139); every
other word and every register read as before. -/
def Obligations.WriteMemStoresTheRegister : Prop :=
  ∀ (s : State) (addr srcReg : Nat), srcReg < s.regCount → effectiveAddress addr < s.memSize →
    ∃ t, exec (.writeMem addr srcReg) s = .next t ∧ t.readMem (effectiveAddress addr) = s.readReg srcReg ∧
      OnlyWordChanged (effectiveAddress addr) s t ∧ SameRegs s t ∧ Completed s t ∧ effectiveAddress addr = addr

/-- WRITE_MEM faults on a missing source register, and else on a missing word (60_exceptions.md R163, R166); memory neither wraps
nor grows. The order is the spec's decision D11. -/
def Obligations.WriteMemFaultsInOrder : Prop :=
  ∀ (s : State) (addr srcReg : Nat), srcReg < 2 ^ 5 → addr < 2 ^ 19 →
    (s.regCount ≤ srcReg → TakesFault s (exec (.writeMem addr srcReg) s) .indexOutOfRange .reg srcReg 0) ∧
    (srcReg < s.regCount → s.memSize ≤ addr →
      TakesFault s (exec (.writeMem addr srcReg) s) .indexOutOfRange .mem addr 0)

/-- SQRT completes and writes the exact integer square root of a non-negative operand (44_sqrt.md R145, R146), at most 46340;
memory and every other register read as before. That "non-negative" is bit 31 is the spec's decision D2. -/
def Obligations.SqrtWritesTheExactRoot : Prop :=
  ∀ (s : State) (reg addr : Nat), addr < s.memSize → (s.readMem addr).toNat < 2 ^ 31 → reg < s.regCount →
    ∃ t, exec (.sqrt reg addr) s = .next t ∧
      (t.readReg reg).toNat * (t.readReg reg).toNat ≤ (s.readMem addr).toNat ∧
      (s.readMem addr).toNat < ((t.readReg reg).toNat + 1) * ((t.readReg reg).toNat + 1) ∧
      (t.readReg reg).toNat ≤ 46340 ∧
      OnlyRegChanged reg s t ∧ SameMem s t ∧ Completed s t

/-- SQRT faults on a missing word, else on a negative operand, else on a missing register (44_sqrt.md R145; 60_exceptions.md
R164, R166). The order and the sign are the spec's decisions D11 and D2. -/
def Obligations.SqrtFaultsInOrder : Prop :=
  ∀ (s : State) (reg addr : Nat), reg < 2 ^ 5 → addr < 2 ^ 19 →
    (s.memSize ≤ addr → TakesFault s (exec (.sqrt reg addr) s) .indexOutOfRange .mem addr 0) ∧
    (addr < s.memSize → (s.readMem addr).toInt < 0 →
      TakesFault s (exec (.sqrt reg addr) s) .domainError .mem addr (s.readMem addr)) ∧
    (addr < s.memSize → 0 ≤ (s.readMem addr).toInt → s.regCount ≤ reg →
      TakesFault s (exec (.sqrt reg addr) s) .indexOutOfRange .reg reg 0)

/-- 20_memory.md R51: an instruction that uses an address at or beyond `MEM_SIZE` faults with IndexOutOfRange; nothing is written,
the address neither wraps nor extends memory; the effective address is the `addr` field itself. The kept `pc` is
60_exceptions.md R170 (b), the spec's decision D12; addresses that fit no field are the model's (notes/assumptions/14.md). -/
def Obligations.AddressBeyondMemorySizeFaults : Prop :=
  (∀ (s : State) (i : Instr) (a : Nat), i.addrOperand = some a → s.memSize ≤ effectiveAddress a →
    ∃ t info, exec i s = .next t ∧ t.status = .faulted .indexOutOfRange info ∧ t.x = s.x ∧ t.mem = s.mem ∧ t.pc = s.pc ∧
      SameArguments s t) ∧
  ∀ a, effectiveAddress a = a

/-- 44_sqrt.md R146: `isqrt n` is the unique `r` with `r * r ≤ n < (r + 1) * (r + 1)`, is monotone, is at most `n`, and equals
`n` exactly for 0 and 1. -/
def Obligations.IsqrtIsTheExactFloorRoot : Prop :=
  (∀ n, isqrt n * isqrt n ≤ n ∧ n < (isqrt n + 1) * (isqrt n + 1)) ∧
  (∀ n r, r * r ≤ n → n < (r + 1) * (r + 1) → r = isqrt n) ∧
  (∀ m n, m ≤ n → isqrt m ≤ isqrt n) ∧
  (∀ n, isqrt n ≤ n) ∧ (∀ n, isqrt n = n ↔ n = 0 ∨ n = 1)

/-- 43_memory_transfer.md R138 (b), R140 (derived there): a WRITE_MEM followed by a READ_MEM of the same address copies the
register bit for bit, through memory. -/
def Obligations.StoreThenLoadCopiesTheRegister : Prop :=
  ∀ (s : State) (a i j : Nat), i < s.regCount → j < s.regCount → a < s.memSize →
    ∃ t u, exec (.writeMem a i) s = .next t ∧ exec (.readMem j a) t = .next u ∧
      u.readReg j = s.readReg i ∧ u.readMem a = s.readReg i ∧ u.pc = s.pc + 8

/-- Two memories in canonical form that read alike are equal data, so equality of states says what it should
(notes/assumptions/3.md: the canonical form is the model's). -/
def Obligations.CanonicalMemoriesThatReadAlikeAreEqual : Prop :=
  ∀ m n : Memory, m.wf → n.wf → (∀ a, m.read a = n.read a) → m = n

/-! ### The host and the toolchain -/

/-- 70_reset_and_hazards.md R203: on an ended run, the dump over an inclusive range gives one (address, value) pair for every
address, ascending; a range with `start > end`, `start < 0` or `end ≥ MEM_SIZE` fails. While RUNNING there is no dump (R198). That
FAULTED counts as an ended run here is the spec's decision D20. -/
def Obligations.DumpListsTheRangeInOrder : Prop :=
  ∀ (s : State) (first last : Int),
    (s.status = .running → dump s first last = none) ∧
    (s.runIsOver → first > last ∨ first < 0 ∨ last ≥ s.memSize → dump s first last = some (.error .dumpRange)) ∧
    (s.runIsOver → 0 ≤ first → first ≤ last → last < s.memSize →
      ∃ l, dump s first last = some (.ok l) ∧ (l.length : Int) = last - first + 1 ∧
        ∀ k : Nat, (k : Int) ≤ last - first → l[k]? = some ((first + k).toNat, s.readMem (first + k).toNat))

/-- 70_reset_and_hazards.md R199: exactly a HALTED or FAULTED state can be read out, and what is read is the state's own
registers, memory, `pc` and status. That RUNNING is not readable is the spec's decision D20. -/
def Obligations.ReadOutOnlyWhenTheRunIsOver : Prop :=
  ∀ s : State, (s.runIsOver → readOut s = some ⟨s.x, s.mem, s.pc, s.status⟩) ∧ (s.status = .running → readOut s = none)

/-- The model's own loading of one word (notes/assumptions/2.md): the word placed is the word the next step fetches, every
other byte of the buffer stays, and `decodeTableWord` is `decode` of that word. -/
def Obligations.PlacedWordIsTheWordFetchedNext : Prop :=
  (∀ (s : State) (nbits w : Nat),
    fetch32 (s.withFetchWord nbits w).prog s.pc = some (tableWord nbits w) ∧
    (∀ k, k < s.prog.length → k < s.pc ∨ s.pc + 4 ≤ k → (s.withFetchWord nbits w).prog[k]? = s.prog[k]?)) ∧
  ∀ (nbits w : Nat) (i : Instr), decodeTableWord nbits w = some i ↔ decode (tableWord nbits w) = .known i

/-- 30_encoding.md R85: the assembler's output is one word per entry in input order, so its length is a multiple of 4. Each is
the word packed from the entry's IR record, it is canonical (R76, derived there), and the core fetches it (20_memory.md R41) and
decodes it to that record (40_decoder.md R98). -/
def Obligations.AssembledProgramsDecodeToTheirEntries : Prop :=
  ∀ (entries : List Entry) (bytes : List Byte), assemble ⟨some entries⟩ = .ok bytes →
    bytes.length = 4 * entries.length ∧
    ∀ (k : Nat) (e : Entry), entries[k]? = some e →
      ∃ i w, entryInstr k e = .ok i ∧ encode i = .ok w ∧ fetch32 bytes (4 * k) = some w ∧ decode w = .known i ∧
        canonical w = true

/-- 30_encoding.md R78, R83, R85: assembly succeeds exactly when there is a `program` list, every entry has an IR record and
every record is well formed; otherwise it fails and no byte is emitted. -/
def Obligations.AssemblyIsAllOrNothing : Prop :=
  (∀ entries : List Entry, (∃ bytes, assemble ⟨some entries⟩ = .ok bytes) ↔
    ∀ (k : Nat) (e : Entry), entries[k]? = some e → ∃ i, entryInstr k e = .ok i ∧ i.wellFormed = true) ∧
  assemble ⟨none⟩ = .error .schema

/-- 30_encoding.md R80: WRITE_MEM's address is `offset` if present, whether or not `addr` is, else `addr`, else assembly fails
("missing field"); no other command accepts `offset`. That another command's entry is not rejected for an `offset` it does not
use is the model's choice (notes/assumptions/15.md). -/
def Obligations.OffsetTakesPrecedenceOverAddr : Prop :=
  (∀ (p src off : Nat) (addr : Option Nat),
    entryInstr p { cmd := "WRITE_MEM", srcReg := some src, offset := some off, addr := addr } =
      .ok (.writeMem off src)) ∧
  (∀ p src a : Nat, entryInstr p { cmd := "WRITE_MEM", srcReg := some src, addr := some a } = .ok (.writeMem a src)) ∧
  (∀ p src : Nat, ∃ f, entryInstr p { cmd := "WRITE_MEM", srcReg := some src } = .error (.missingField p f)) ∧
  (∀ (p : Nat) (e : Entry) (off : Option Nat), e.cmd ≠ "WRITE_MEM" → entryInstr p { e with offset := off } = entryInstr p e)

/-- 30_encoding.md R77, R79, R82: the four texts `LOAD_CONST`, `READ_MEM`, `WRITE_MEM` and `SQRT` are command names, each of its own
opcode, and with its required keys each gives the IR record of the table of R79; any other text fails as an unknown command
with the entry's position. -/
def Obligations.CommandNamesAreTheFourOpcodeNames : Prop :=
  (∀ (name : String) (op : Opcode), commandOpcode name = some op ↔
    (name, op) ∈ [("LOAD_CONST", .loadConst), ("READ_MEM", .readMem), ("WRITE_MEM", .writeMem), ("SQRT", .sqrt)]) ∧
  (∀ p value reg : Nat,
    entryInstr p { cmd := "LOAD_CONST", reg := some reg, value := some value } = .ok (.loadConst value reg)) ∧
  (∀ p reg addr : Nat,
    entryInstr p { cmd := "READ_MEM", reg := some reg, addr := some addr } = .ok (.readMem reg addr) ∧
    entryInstr p { cmd := "WRITE_MEM", srcReg := some reg, addr := some addr } = .ok (.writeMem addr reg) ∧
    entryInstr p { cmd := "SQRT", reg := some reg, addr := some addr } = .ok (.sqrt reg addr)) ∧
  (∀ (p : Nat) (e : Entry), e.cmd ∉ ["LOAD_CONST", "READ_MEM", "WRITE_MEM", "SQRT"] →
    entryInstr p e = .error (.unknownCommand p e.cmd))
end

