-- ==== Sys2Proof/Laws/Decode.lean ====
section
/-! SUPPORT. Laws of the layout table, the decoder and the fetch of a word. -/
namespace Sys2Proof

/-- The opcode test finds the opcode of each code (30_encoding.md R66). -/
@[simp] theorem Opcode.ofCode_code (op : Opcode) : Opcode.ofCode op.code = some op := by cases op <;> rfl

/-- The opcode test answers only with an opcode of that code. -/
theorem Opcode.ofCode_eq_some {c : BitVec 6} {op : Opcode} (h : Opcode.ofCode c = some op) : c = op.code := by
  unfold Opcode.ofCode at h
  split at h
  · cases h; assumption
  · split at h
    · cases h; assumption
    · split at h
      · cases h; assumption
      · split at h
        · cases h; assumption
        · cases h

/-- The two ways a word decodes. -/
theorem decode_cases (w : Word) :
    (∃ op, opcodeField w = op.code ∧
      decode w = .known (Instr.ofFields op (op.layout.1.extract w) (op.layout.2.extract w))) ∨
    (Opcode.ofCode (opcodeField w) = none ∧ decode w = .unknown (opcodeField w)) := by
  cases h : Opcode.ofCode (opcodeField w) with
  | none => exact .inr ⟨rfl, by simp [decode, h]⟩
  | some op => exact .inl ⟨op, Opcode.ofCode_eq_some h, by simp [decode, h]⟩

/-- The word of a known opcode decodes to the fields the table gives that opcode. -/
theorem decode_of_opcode {w : Word} {op : Opcode} (h : opcodeField w = op.code) :
    decode w = .known (Instr.ofFields op (op.layout.1.extract w) (op.layout.2.extract w)) := by
  simp [decode, h]

/-- An extracted field is below `2^width` (40_decoder.md R94). -/
theorem Field.extract_lt (f : Field) (w : Word) : f.extract w < 2 ^ f.width := Nat.mod_lt _ (Nat.two_pow_pos _)

@[simp] theorem Instr.ofFields_opcode (op : Opcode) (b c : Nat) : (Instr.ofFields op b c).opcode = op := by
  cases op <;> rfl

@[simp] theorem Instr.ofFields_operands (op : Opcode) (b c : Nat) : (Instr.ofFields op b c).operands = (b, c) := by
  cases op <;> rfl

@[simp] theorem Instr.ofFields_eta (i : Instr) : Instr.ofFields i.opcode i.operands.1 i.operands.2 = i := by
  cases i <;> rfl

/-- A value fits a width exactly when it is below `2^width` (30_encoding.md R73). -/
@[simp] theorem fits_iff (width value : Nat) : fits width value = true ↔ value < 2 ^ width := decide_eq_true_iff

/-- Well-formed means that both operands fit the widths of the layout table. -/
theorem Instr.wellFormed_iff (i : Instr) :
    i.wellFormed = true ↔
      i.operands.1 < 2 ^ i.opcode.layout.1.width ∧ i.operands.2 < 2 ^ i.opcode.layout.2.width := by
  cases i <;> simp [Instr.wellFormed, Instr.operands, Instr.opcode, Opcode.layout]

/-- A fetch succeeds exactly when four bytes are left (20_memory.md R41, R45). -/
theorem fetch32_eq_none {prog : List Byte} {p : Nat} : fetch32 prog p = none ↔ prog.length < p + 4 := by
  have hlen : (prog.drop p).length = prog.length - p := List.length_drop
  unfold fetch32
  split
  · next heq => rw [heq] at hlen; simp at hlen; simp; omega
  · next hne =>
    simp only [true_iff]
    match hd : prog.drop p with
    | [] => rw [hd] at hlen; simp at hlen; omega
    | [_] => rw [hd] at hlen; simp at hlen; omega
    | [_, _] => rw [hd] at hlen; simp at hlen; omega
    | [_, _, _] => rw [hd] at hlen; simp at hlen; omega
    | b0 :: b1 :: b2 :: b3 :: t => exact absurd hd (hne b0 b1 b2 b3 t)

theorem fetch32_lt {prog : List Byte} {p : Nat} {w : Word} (h : fetch32 prog p = some w) : p + 4 ≤ prog.length := by
  by_contra hlt
  simp [fetch32_eq_none.mpr (Nat.lt_of_not_le hlt)] at h

end Sys2Proof
end

