-- ==== Sys2Proof/Laws/State.lean ====
section
/-! SUPPORT. The state's field lemmas: one per field per update, true by rfl, so that no proof unfolds a record update; then
the same for the reads, and the law of register reads after writes. -/
namespace Sys2Proof.Machine

section writeReg
variable (s : State) (i : Nat) (v : Word)
@[simp] theorem State.writeReg_x : (s.writeReg i v).x = s.x.set i v := rfl
@[simp] theorem State.writeReg_mem : (s.writeReg i v).mem = s.mem := rfl
@[simp] theorem State.writeReg_pc : (s.writeReg i v).pc = s.pc := rfl
@[simp] theorem State.writeReg_status : (s.writeReg i v).status = s.status := rfl
@[simp] theorem State.writeReg_phase : (s.writeReg i v).phase = s.phase := rfl
@[simp] theorem State.writeReg_ir : (s.writeReg i v).ir = s.ir := rfl
@[simp] theorem State.writeReg_latch : (s.writeReg i v).latch = s.latch := rfl
@[simp] theorem State.writeReg_memSize : (s.writeReg i v).memSize = s.memSize := rfl
@[simp] theorem State.writeReg_prog : (s.writeReg i v).prog = s.prog := rfl
@[simp] theorem State.writeReg_readMem (b : Nat) : (s.writeReg i v).readMem b = s.readMem b := rfl
@[simp] theorem State.writeReg_progLen : (s.writeReg i v).progLen = s.progLen := rfl
end writeReg

section writeMem
variable (s : State) (a : Nat) (v : Word)
@[simp] theorem State.writeMem_x : (s.writeMem a v).x = s.x := rfl
@[simp] theorem State.writeMem_mem : (s.writeMem a v).mem = s.mem.write a v := rfl
@[simp] theorem State.writeMem_pc : (s.writeMem a v).pc = s.pc := rfl
@[simp] theorem State.writeMem_status : (s.writeMem a v).status = s.status := rfl
@[simp] theorem State.writeMem_phase : (s.writeMem a v).phase = s.phase := rfl
@[simp] theorem State.writeMem_ir : (s.writeMem a v).ir = s.ir := rfl
@[simp] theorem State.writeMem_latch : (s.writeMem a v).latch = s.latch := rfl
@[simp] theorem State.writeMem_memSize : (s.writeMem a v).memSize = s.memSize := rfl
@[simp] theorem State.writeMem_prog : (s.writeMem a v).prog = s.prog := rfl
@[simp] theorem State.writeMem_readReg (j : Nat) : (s.writeMem a v).readReg j = s.readReg j := rfl
@[simp] theorem State.writeMem_regCount : (s.writeMem a v).regCount = s.regCount := rfl
@[simp] theorem State.writeMem_progLen : (s.writeMem a v).progLen = s.progLen := rfl
end writeMem

section complete
variable (s : State)
@[simp] theorem State.complete_x : s.complete.x = s.x := rfl
@[simp] theorem State.complete_mem : s.complete.mem = s.mem := rfl
@[simp] theorem State.complete_pc : s.complete.pc = s.pc + 4 := rfl
@[simp] theorem State.complete_status : s.complete.status = s.status := rfl
@[simp] theorem State.complete_phase : s.complete.phase = .fetch := rfl
@[simp] theorem State.complete_ir : s.complete.ir = s.ir := rfl
@[simp] theorem State.complete_latch : s.complete.latch = s.latch := rfl
@[simp] theorem State.complete_memSize : s.complete.memSize = s.memSize := rfl
@[simp] theorem State.complete_prog : s.complete.prog = s.prog := rfl
@[simp] theorem State.complete_readReg (j : Nat) : s.complete.readReg j = s.readReg j := rfl
@[simp] theorem State.complete_regCount : s.complete.regCount = s.regCount := rfl
@[simp] theorem State.complete_readMem (b : Nat) : s.complete.readMem b = s.readMem b := rfl
@[simp] theorem State.complete_progLen : s.complete.progLen = s.progLen := rfl
end complete

section halt
variable (s : State)
@[simp] theorem State.halt_x : s.halt.x = s.x := rfl
@[simp] theorem State.halt_mem : s.halt.mem = s.mem := rfl
@[simp] theorem State.halt_pc : s.halt.pc = s.pc := rfl
@[simp] theorem State.halt_status : s.halt.status = .halted := rfl
@[simp] theorem State.halt_phase : s.halt.phase = s.phase := rfl
@[simp] theorem State.halt_ir : s.halt.ir = s.ir := rfl
@[simp] theorem State.halt_latch : s.halt.latch = s.latch := rfl
@[simp] theorem State.halt_memSize : s.halt.memSize = s.memSize := rfl
@[simp] theorem State.halt_prog : s.halt.prog = s.prog := rfl
@[simp] theorem State.halt_readReg (j : Nat) : s.halt.readReg j = s.readReg j := rfl
@[simp] theorem State.halt_regCount : s.halt.regCount = s.regCount := rfl
@[simp] theorem State.halt_readMem (b : Nat) : s.halt.readMem b = s.readMem b := rfl
@[simp] theorem State.halt_progLen : s.halt.progLen = s.progLen := rfl
end halt

section raise
variable (s : State) (c : FaultCause) (sp : FaultSpace) (n : Nat) (v : Word)
@[simp] theorem State.raise_x : (s.raise c sp n v).x = s.x := rfl
@[simp] theorem State.raise_mem : (s.raise c sp n v).mem = s.mem := rfl
@[simp] theorem State.raise_pc : (s.raise c sp n v).pc = s.pc := rfl
@[simp] theorem State.raise_status : (s.raise c sp n v).status = .faulted c (s.faultRecord sp n v) := rfl
@[simp] theorem State.raise_phase : (s.raise c sp n v).phase = s.phase := rfl
@[simp] theorem State.raise_ir : (s.raise c sp n v).ir = s.ir := rfl
@[simp] theorem State.raise_latch : (s.raise c sp n v).latch = s.latch := rfl
@[simp] theorem State.raise_memSize : (s.raise c sp n v).memSize = s.memSize := rfl
@[simp] theorem State.raise_prog : (s.raise c sp n v).prog = s.prog := rfl
@[simp] theorem State.raise_readReg (j : Nat) : (s.raise c sp n v).readReg j = s.readReg j := rfl
@[simp] theorem State.raise_regCount : (s.raise c sp n v).regCount = s.regCount := rfl
@[simp] theorem State.raise_readMem (b : Nat) : (s.raise c sp n v).readMem b = s.readMem b := rfl
@[simp] theorem State.raise_progLen : (s.raise c sp n v).progLen = s.progLen := rfl
end raise

section fetched
variable (s : State) (w : Word)
@[simp] theorem State.fetched_x : (s.fetched w).x = s.x := rfl
@[simp] theorem State.fetched_mem : (s.fetched w).mem = s.mem := rfl
@[simp] theorem State.fetched_pc : (s.fetched w).pc = s.pc := rfl
@[simp] theorem State.fetched_status : (s.fetched w).status = s.status := rfl
@[simp] theorem State.fetched_phase : (s.fetched w).phase = .decode := rfl
@[simp] theorem State.fetched_ir : (s.fetched w).ir = w := rfl
@[simp] theorem State.fetched_latch : (s.fetched w).latch = s.latch := rfl
@[simp] theorem State.fetched_memSize : (s.fetched w).memSize = s.memSize := rfl
@[simp] theorem State.fetched_prog : (s.fetched w).prog = s.prog := rfl
@[simp] theorem State.fetched_readReg (j : Nat) : (s.fetched w).readReg j = s.readReg j := rfl
@[simp] theorem State.fetched_regCount : (s.fetched w).regCount = s.regCount := rfl
@[simp] theorem State.fetched_readMem (b : Nat) : (s.fetched w).readMem b = s.readMem b := rfl
@[simp] theorem State.fetched_progLen : (s.fetched w).progLen = s.progLen := rfl
end fetched

section decoded
variable (s : State) (i : Instr)
@[simp] theorem State.decoded_x : (s.decoded i).x = s.x := rfl
@[simp] theorem State.decoded_mem : (s.decoded i).mem = s.mem := rfl
@[simp] theorem State.decoded_pc : (s.decoded i).pc = s.pc := rfl
@[simp] theorem State.decoded_status : (s.decoded i).status = s.status := rfl
@[simp] theorem State.decoded_phase : (s.decoded i).phase = .execute := rfl
@[simp] theorem State.decoded_ir : (s.decoded i).ir = s.ir := rfl
@[simp] theorem State.decoded_latch : (s.decoded i).latch = i := rfl
@[simp] theorem State.decoded_memSize : (s.decoded i).memSize = s.memSize := rfl
@[simp] theorem State.decoded_prog : (s.decoded i).prog = s.prog := rfl
@[simp] theorem State.decoded_readReg (j : Nat) : (s.decoded i).readReg j = s.readReg j := rfl
@[simp] theorem State.decoded_regCount : (s.decoded i).regCount = s.regCount := rfl
@[simp] theorem State.decoded_readMem (b : Nat) : (s.decoded i).readMem b = s.readMem b := rfl
@[simp] theorem State.decoded_progLen : (s.decoded i).progLen = s.progLen := rfl
end decoded

@[simp] theorem State.raiseUnknown_eq (s : State) : s.raiseUnknown = s.raise .unknownOpcode .none 0 0 := rfl
@[simp] theorem State.raiseIndex_eq (s : State) (sp : FaultSpace) (n : Nat) :
    s.raiseIndex sp n = s.raise .indexOutOfRange sp n 0 := rfl
@[simp] theorem State.raiseDomain_eq (s : State) (a : Nat) (v : Word) :
    s.raiseDomain a v = s.raise .domainError .mem a v := rfl

section faultRecord
variable (s : State) (sp : FaultSpace) (n : Nat) (v : Word)
@[simp] theorem State.faultRecord_faultPc : (s.faultRecord sp n v).faultPc = s.pc := rfl
@[simp] theorem State.faultRecord_faultWord : (s.faultRecord sp n v).faultWord = s.ir := rfl
@[simp] theorem State.faultRecord_faultOp : (s.faultRecord sp n v).faultOp = s.ir.extractLsb' 0 6 := rfl
@[simp] theorem State.faultRecord_faultSpace : (s.faultRecord sp n v).faultSpace = sp := rfl
@[simp] theorem State.faultRecord_faultIndex : (s.faultRecord sp n v).faultIndex = BitVec.ofNat 19 n := rfl
@[simp] theorem State.faultRecord_faultValue : (s.faultRecord sp n v).faultValue = v := rfl
end faultRecord

/-- Writing a register does not change how many there are. -/
@[simp] theorem State.writeReg_regCount (s : State) (i : Nat) (v : Word) : (s.writeReg i v).regCount = s.regCount := by
  simp [State.regCount]

/-- A register reads back what was written to it. -/
theorem State.readReg_writeReg_same (s : State) {i : Nat} (v : Word) (h : i < s.regCount) :
    (s.writeReg i v).readReg i = v := by
  have h' : i < s.x.length := h
  simp [State.readReg, List.getD, h']

/-- Writing a register leaves every other register alone. -/
theorem State.readReg_writeReg_other (s : State) {i j : Nat} (v : Word) (h : j ≠ i) :
    (s.writeReg i v).readReg j = s.readReg j := by
  simp [State.readReg, List.getD, List.getElem?_set_ne (Ne.symm h)]

/-- A memory word reads as the memory's own read. -/
@[simp] theorem State.writeMem_readMem (s : State) (a b : Nat) (v : Word) :
    (s.writeMem a v).readMem b = (s.mem.write a v).read b := rfl

end Sys2Proof.Machine
end

