-- ==== Sys2Proof/Laws/Memory.lean ====
section
/-! SUPPORT. The laws of data memory: a read after a write, and that every memory operation keeps the canonical form and the
bound on the listed addresses. None of the read laws asks for the canonical form. -/
namespace Sys2Proof.Machine

theorem Memory.read_erase_same (m : Memory) (a : Nat) : (m.erase a).read a = 0 := by
  induction m with
  | nil => rfl
  | cons p t ih =>
    obtain ⟨k, u⟩ := p
    by_cases h : k = a <;> simp_all [Memory.erase, Memory.read]

theorem Memory.read_erase_other (m : Memory) {a b : Nat} (hb : b ≠ a) : (m.erase a).read b = m.read b := by
  induction m with
  | nil => rfl
  | cons p t ih =>
    obtain ⟨k, u⟩ := p
    by_cases h : k = a
    · subst h
      simpa [Memory.erase, Memory.read, Ne.symm hb] using ih
    · simp only [Memory.erase] at ih
      simp [Memory.erase, Memory.read, h, ih]

theorem Memory.not_mem_erase (m : Memory) (a : Nat) : ∀ p ∈ m.erase a, p.1 ≠ a := by
  intro p hp
  simpa using (List.mem_filter.mp hp).2

theorem Memory.read_insert_same (m : Memory) (a : Nat) (v : Word) (h : ∀ p ∈ m, p.1 ≠ a) :
    (m.insert a v).read a = v := by
  induction m with
  | nil => simp [Memory.insert, Memory.read]
  | cons p t ih =>
    obtain ⟨k, u⟩ := p
    have hk : k ≠ a := h (k, u) (by simp)
    have ht := ih fun q hq => h q (by simp [hq])
    by_cases hlt : a < k <;> simp [Memory.insert, Memory.read, hlt, hk, ht]

theorem Memory.read_insert_other (m : Memory) {a b : Nat} (v : Word) (hb : b ≠ a) :
    (m.insert a v).read b = m.read b := by
  induction m with
  | nil => simp [Memory.insert, Memory.read, Ne.symm hb]
  | cons p t ih =>
    obtain ⟨k, u⟩ := p
    by_cases hlt : a < k <;> simp [Memory.insert, Memory.read, hlt, Ne.symm hb, ih]

theorem Memory.write_of_zero (m : Memory) (a : Nat) {v : Word} (h : v = 0) : m.write a v = m.erase a := if_pos h

theorem Memory.write_of_ne (m : Memory) (a : Nat) {v : Word} (h : v ≠ 0) : m.write a v = (m.erase a).insert a v :=
  if_neg h

/-- A read of the address written gives the value written (20_memory.md R49). -/
@[simp] theorem Memory.read_write_same (m : Memory) (a : Nat) (v : Word) : (m.write a v).read a = v := by
  by_cases h : v = 0
  · rw [m.write_of_zero a h, Memory.read_erase_same, h]
  · rw [m.write_of_ne a h, Memory.read_insert_same _ _ _ (m.not_mem_erase a)]

/-- A write changes that one word only (20_memory.md R49). -/
theorem Memory.read_write_other (m : Memory) {a b : Nat} (v : Word) (hb : b ≠ a) :
    (m.write a v).read b = m.read b := by
  by_cases h : v = 0
  · rw [m.write_of_zero a h, Memory.read_erase_other _ hb]
  · rw [m.write_of_ne a h, Memory.read_insert_other _ _ hb, Memory.read_erase_other _ hb]

theorem Memory.mem_insert (m : Memory) (a : Nat) (v : Word) {p : Nat × Word} :
    p ∈ m.insert a v ↔ p = (a, v) ∨ p ∈ m := by
  induction m with
  | nil => simp [Memory.insert]
  | cons q t ih =>
    obtain ⟨k, u⟩ := q
    by_cases hlt : a < k
    · simp [Memory.insert, hlt]
    · simp only [Memory.insert, hlt, if_false, List.mem_cons, ih]
      tauto

theorem Memory.erase_wf {m : Memory} (a : Nat) (h : m.wf) : (m.erase a).wf :=
  ⟨h.1.filter _, fun p hp => h.2 p (List.mem_filter.mp hp).1⟩

theorem Memory.insert_wf {m : Memory} {a : Nat} {v : Word} (h : m.wf) (ha : ∀ p ∈ m, p.1 ≠ a) (hv : v ≠ 0) :
    (m.insert a v).wf := by
  refine ⟨?_, fun p hp => ?_⟩
  · induction m with
    | nil => simp [Memory.insert]
    | cons q t ih =>
      obtain ⟨k, u⟩ := q
      obtain ⟨hp, hz⟩ := h
      have hp' := List.pairwise_cons.mp hp
      have hka : k ≠ a := ha (k, u) (by simp)
      by_cases hlt : a < k
      · simp only [Memory.insert, hlt, if_true]
        refine List.pairwise_cons.mpr ⟨fun p hpm => ?_, hp⟩
        rcases List.mem_cons.mp hpm with rfl | hpt
        · exact hlt
        · exact Nat.lt_trans hlt (hp'.1 p hpt)
      · simp only [Memory.insert, hlt, if_false]
        refine List.pairwise_cons.mpr ⟨fun p hpm => ?_, ?_⟩
        · rcases (Memory.mem_insert t a v).mp hpm with rfl | hpt
          · show k < a
            omega
          · exact hp'.1 p hpt
        · exact ih ⟨hp'.2, fun p hpt => hz p (by simp [hpt])⟩ fun p hpt => ha p (by simp [hpt])
  · rcases (Memory.mem_insert m a v).mp hp with rfl | hpm
    · exact hv
    · exact h.2 p hpm

/-- A write keeps the canonical form. -/
theorem Memory.write_wf {m : Memory} (a : Nat) (v : Word) (h : m.wf) : (m.write a v).wf := by
  by_cases hv : v = 0
  · exact m.write_of_zero a hv ▸ Memory.erase_wf a h
  · exact m.write_of_ne a hv ▸ Memory.insert_wf (Memory.erase_wf a h) (m.not_mem_erase a) hv

/-- A write below a bound keeps every listed address below it. -/
theorem Memory.write_below {m : Memory} {n a : Nat} (v : Word) (h : m.below n) (ha : a < n) : (m.write a v).below n := by
  intro p hp
  have herase : ∀ q ∈ m.erase a, q.1 < n := fun q hq => h q (List.mem_filter.mp hq).1
  by_cases hv : v = 0
  · exact herase p (m.write_of_zero a hv ▸ hp)
  · rcases (Memory.mem_insert _ _ _).mp (m.write_of_ne a hv ▸ hp) with rfl | hpm
    · exact ha
    · exact herase p hpm

/-- The empty memory, that of reset, has the canonical form. -/
theorem Memory.nil_wf : Memory.wf [] := by simp [Memory.wf]

end Sys2Proof.Machine
end

