-- ==== Sys2Proof/Laws/Exec.lean ====
section
/-! SUPPORT. What each meaning can do, said once: for the shared checks, for each instruction, and for `exec`. -/
namespace Sys2Proof.Machine

/-- The register check: IndexOutOfRange, or on with an existing register. -/
theorem requireReg_cases (s : State) (i : Nat) (go : StepResult) :
    (s.regCount ≤ i ∧ requireReg s i go = .next (s.raise .indexOutOfRange .reg i 0)) ∨
    (i < s.regCount ∧ requireReg s i go = go) := by
  by_cases h : i < s.regCount
  · exact .inr ⟨h, by simp [requireReg, Nat.not_le.mpr h]⟩
  · exact .inl ⟨Nat.le_of_not_lt h, by simp [requireReg, Nat.le_of_not_lt h]⟩

/-- The address check: IndexOutOfRange, or on with an existing word. -/
theorem requireAddr_cases (s : State) (a : Nat) (go : StepResult) :
    (s.memSize ≤ a ∧ requireAddr s a go = .next (s.raise .indexOutOfRange .mem a 0)) ∨
    (a < s.memSize ∧ requireAddr s a go = go) := by
  by_cases h : a < s.memSize
  · exact .inr ⟨h, by simp [requireAddr, Nat.not_le.mpr h]⟩
  · exact .inl ⟨Nat.le_of_not_lt h, by simp [requireAddr, Nat.le_of_not_lt h]⟩

/-- The sign test of SQRT is bit 31 (44_sqrt.md R147). -/
theorem isNegative_iff (v : Word) : isNegative v = true ↔ 2 ^ 31 ≤ v.toNat := by
  have := v.isLt
  unfold isNegative signed32
  split <;> simp <;> omega

theorem execLoadConst_cases (value reg : Nat) (s : State) :
    (s.regCount ≤ reg ∧ execLoadConst value reg s = .next (s.raise .indexOutOfRange .reg reg 0)) ∨
    (reg < s.regCount ∧ execLoadConst value reg s = .next (s.writeReg reg (zext32 value)).complete) :=
  requireReg_cases s reg _

theorem execReadMem_cases (reg addr : Nat) (s : State) :
    (s.memSize ≤ addr ∧ execReadMem reg addr s = .next (s.raise .indexOutOfRange .mem addr 0)) ∨
    (addr < s.memSize ∧ s.regCount ≤ reg ∧ execReadMem reg addr s = .next (s.raise .indexOutOfRange .reg reg 0)) ∨
    (addr < s.memSize ∧ reg < s.regCount ∧
      execReadMem reg addr s = .next (s.writeReg reg (s.readMem addr)).complete) := by
  rcases requireAddr_cases s addr _ with ⟨h, e⟩ | ⟨h, e⟩
  · exact .inl ⟨h, e⟩
  · rcases requireReg_cases s reg _ with ⟨h', e'⟩ | ⟨h', e'⟩
    · exact .inr (.inl ⟨h, h', e.trans e'⟩)
    · exact .inr (.inr ⟨h, h', e.trans e'⟩)

theorem execWriteMem_cases (addr srcReg : Nat) (s : State) :
    (s.regCount ≤ srcReg ∧ execWriteMem addr srcReg s = .next (s.raise .indexOutOfRange .reg srcReg 0)) ∨
    (srcReg < s.regCount ∧ s.memSize ≤ addr ∧
      execWriteMem addr srcReg s = .next (s.raise .indexOutOfRange .mem addr 0)) ∨
    (srcReg < s.regCount ∧ addr < s.memSize ∧
      execWriteMem addr srcReg s = .next (s.writeMem addr (s.readReg srcReg)).complete) := by
  rcases requireReg_cases s srcReg _ with ⟨h, e⟩ | ⟨h, e⟩
  · exact .inl ⟨h, e⟩
  · rcases requireAddr_cases s addr _ with ⟨h', e'⟩ | ⟨h', e'⟩
    · exact .inr (.inl ⟨h, h', e.trans e'⟩)
    · exact .inr (.inr ⟨h, h', e.trans e'⟩)

theorem execSqrt_cases (reg addr : Nat) (s : State) :
    (s.memSize ≤ addr ∧ execSqrt reg addr s = .next (s.raise .indexOutOfRange .mem addr 0)) ∨
    (addr < s.memSize ∧ 2 ^ 31 ≤ (s.readMem addr).toNat ∧
      execSqrt reg addr s = .next (s.raise .domainError .mem addr (s.readMem addr))) ∨
    (addr < s.memSize ∧ (s.readMem addr).toNat < 2 ^ 31 ∧ s.regCount ≤ reg ∧
      execSqrt reg addr s = .next (s.raise .indexOutOfRange .reg reg 0)) ∨
    (addr < s.memSize ∧ (s.readMem addr).toNat < 2 ^ 31 ∧ reg < s.regCount ∧
      execSqrt reg addr s = .next (s.writeReg reg (zext32 (isqrt (s.readMem addr).toNat))).complete) := by
  have hneg := isNegative_iff (s.readMem addr)
  rcases requireAddr_cases s addr _ with ⟨h, e⟩ | ⟨h, e⟩
  · exact .inl ⟨h, e⟩
  · by_cases hn : isNegative (s.readMem addr) = true
    · exact .inr (.inl ⟨h, hneg.mp hn, e.trans (if_pos hn)⟩)
    · have hlt : (s.readMem addr).toNat < 2 ^ 31 := Nat.lt_of_not_le fun hle => hn (hneg.mpr hle)
      rcases requireReg_cases s reg _ with ⟨h', e'⟩ | ⟨h', e'⟩
      · exact .inr (.inr (.inl ⟨h, hlt, h', e.trans ((if_neg hn).trans e')⟩))
      · exact .inr (.inr (.inr ⟨h, hlt, h', e.trans ((if_neg hn).trans e')⟩))

/-- Everything an instruction can do: take a fault, write one existing register, or write one existing memory word. Each case
says which instruction it was. -/
theorem exec_cases (i : Instr) (s : State) :
    (∃ sp n, exec i s = .next (s.raise .indexOutOfRange sp n 0) ∧
      (sp = .reg ∧ n = i.regOperand ∧ s.regCount ≤ n ∨ sp = .mem ∧ i.addrOperand = some n ∧ s.memSize ≤ n)) ∨
    (∃ reg addr, i = .sqrt reg addr ∧ addr < s.memSize ∧ 2 ^ 31 ≤ (s.readMem addr).toNat ∧
      exec i s = .next (s.raise .domainError .mem addr (s.readMem addr))) ∨
    (∃ reg v, reg < s.regCount ∧ exec i s = .next (s.writeReg reg v).complete ∧
      ((∃ value, i = .loadConst value reg ∧ v = zext32 value) ∨
        (∃ addr, i = .readMem reg addr ∧ addr < s.memSize ∧ v = s.readMem addr) ∨
        (∃ addr, i = .sqrt reg addr ∧ addr < s.memSize ∧ (s.readMem addr).toNat < 2 ^ 31 ∧
          v = zext32 (isqrt (s.readMem addr).toNat)))) ∨
    (∃ addr srcReg, i = .writeMem addr srcReg ∧ srcReg < s.regCount ∧ addr < s.memSize ∧
      exec i s = .next (s.writeMem addr (s.readReg srcReg)).complete) := by
  cases i with
  | loadConst value reg =>
    rcases execLoadConst_cases value reg s with ⟨h, e⟩ | ⟨h, e⟩
    · exact .inl ⟨.reg, reg, e, .inl ⟨rfl, rfl, h⟩⟩
    · exact .inr (.inr (.inl ⟨reg, _, h, e, .inl ⟨value, rfl, rfl⟩⟩))
  | readMem reg addr =>
    rcases execReadMem_cases reg addr s with ⟨h, e⟩ | ⟨_, h, e⟩ | ⟨ha, h, e⟩
    · exact .inl ⟨.mem, addr, e, .inr ⟨rfl, rfl, h⟩⟩
    · exact .inl ⟨.reg, reg, e, .inl ⟨rfl, rfl, h⟩⟩
    · exact .inr (.inr (.inl ⟨reg, _, h, e, .inr (.inl ⟨addr, rfl, ha, rfl⟩)⟩))
  | writeMem addr srcReg =>
    rcases execWriteMem_cases addr srcReg s with ⟨h, e⟩ | ⟨_, h, e⟩ | ⟨hr, h, e⟩
    · exact .inl ⟨.reg, srcReg, e, .inl ⟨rfl, rfl, h⟩⟩
    · exact .inl ⟨.mem, addr, e, .inr ⟨rfl, rfl, h⟩⟩
    · exact .inr (.inr (.inr ⟨addr, srcReg, rfl, hr, h, e⟩))
  | sqrt reg addr =>
    rcases execSqrt_cases reg addr s with ⟨h, e⟩ | ⟨ha, h, e⟩ | ⟨_, _, h, e⟩ | ⟨ha, hn, h, e⟩
    · exact .inl ⟨.mem, addr, e, .inr ⟨rfl, rfl, h⟩⟩
    · exact .inr (.inl ⟨reg, addr, rfl, ha, h, e⟩)
    · exact .inl ⟨.reg, reg, e, .inl ⟨rfl, rfl, h⟩⟩
    · exact .inr (.inr (.inl ⟨reg, _, h, e, .inr (.inr ⟨addr, rfl, ha, hn, rfl⟩)⟩))

end Sys2Proof.Machine
end

