-- ==== Sys2Proof/Laws/Host.lean ====
section
/-! SUPPORT. Small laws of read-out, of the dump's words and of the command names. -/
namespace Sys2Proof.Machine

@[simp] theorem commandOpcode_commandName (op : Opcode) : commandOpcode (commandName op) = some op := by cases op <;> rfl

theorem commandName_of_commandOpcode {name : String} {op : Opcode} (h : commandOpcode name = some op) : commandName op = name := by
  simpa using List.find?_some h

theorem commandName_injective {a b : Opcode} (h : commandName a = commandName b) : a = b := by
  simpa using congrArg commandOpcode h

/-- A dump is made exactly of a state that can be read out. -/
theorem dump_isSome (s : State) (first last : Int) : (dump s first last).isSome = (readOut s).isSome := by
  simp [dump]

theorem dumpWords_out_of_range {mem : Memory} {memSize : Nat} {first last : Int}
    (h : first > last ∨ first < 0 ∨ last ≥ memSize) : dumpWords mem memSize first last = .error .dumpRange := if_pos h

theorem dumpWords_in_range {mem : Memory} {memSize : Nat} {first last : Int} (h0 : 0 ≤ first) (h1 : first ≤ last)
    (h2 : last < memSize) : dumpWords mem memSize first last =
      .ok ((List.range' first.toNat (last - first + 1).toNat).map fun a => (a, mem.read a)) := if_neg (by omega)

end Sys2Proof.Machine
end

