-- ==== Sys2Proof/Laws/PerInstr.lean ====
section
/-! SUPPORT. Statements about every instruction as syntax, one lemma per constructor. -/
namespace Sys2Proof

/-- A well-formed instruction passes pack's two range checks: it is encoded, as the union of its fields (30_encoding.md
R72, R73). -/
def Laws.WellFormedEncodes.Statement (i : Instr) : Prop :=
  i.wellFormed = true → encode i = .ok (packWord i.opcode i.operands.1 i.operands.2)

/-- Pack accepts fields that fit. -/
theorem pack_of_fits {op : Opcode} {b c : Nat} (hb : b < 2 ^ op.layout.1.width) (hc : c < 2 ^ op.layout.2.width) :
    pack op b c = .ok (packWord op b c) := by
  have hb' := (fits_iff _ b).mpr hb
  have hc' := (fits_iff _ c).mpr hc
  simp [pack, hb', hc']

theorem Laws.WellFormedEncodes.loadConst (value reg : Nat) : Laws.WellFormedEncodes.Statement (.loadConst value reg) :=
  fun h => pack_of_fits ((Instr.wellFormed_iff _).mp h).1 ((Instr.wellFormed_iff _).mp h).2
theorem Laws.WellFormedEncodes.readMem (reg addr : Nat) : Laws.WellFormedEncodes.Statement (.readMem reg addr) :=
  fun h => pack_of_fits ((Instr.wellFormed_iff _).mp h).1 ((Instr.wellFormed_iff _).mp h).2
theorem Laws.WellFormedEncodes.writeMem (addr srcReg : Nat) : Laws.WellFormedEncodes.Statement (.writeMem addr srcReg) :=
  fun h => pack_of_fits ((Instr.wellFormed_iff _).mp h).1 ((Instr.wellFormed_iff _).mp h).2
theorem Laws.WellFormedEncodes.sqrt (reg addr : Nat) : Laws.WellFormedEncodes.Statement (.sqrt reg addr) :=
  fun h => pack_of_fits ((Instr.wellFormed_iff _).mp h).1 ((Instr.wellFormed_iff _).mp h).2

end Sys2Proof
end

