-- ==== Sys2Proof/Laws/Step.lean ====
section
/-! SUPPORT. What a step can do, said once (41_control_fsm.md R118). -/
namespace Sys2Proof.Machine

theorem step_running {s : State} (h : s.status = .running) : step s = stepRunning s := by simp [step, h]

/-- A step that answers a next state was taken while RUNNING: it halted, met an unknown opcode, or executed the fetched
instruction on the state in which the word and the instruction are latched. -/
theorem step_cases {s t : State} (h : step s = .next t) :
    s.status = .running ∧
      ((fetch32 s.prog s.pc = none ∧ t = s.halt) ∨
       (∃ w op, fetch32 s.prog s.pc = some w ∧ decode w = .unknown op ∧
          t = (s.fetched w).raise .unknownOpcode .none 0 0) ∨
       (∃ w i, fetch32 s.prog s.pc = some w ∧ decode w = .known i ∧
          exec i ((s.fetched w).decoded i) = .next t)) := by
  unfold step at h
  split at h
  · next hr =>
    refine ⟨hr, ?_⟩
    unfold stepRunning at h
    split at h
    · next hf => exact .inl ⟨hf, by simpa using h.symm⟩
    · next w hf =>
      split at h
      · next op hd => exact .inr (.inl ⟨w, op, hf, hd, by simpa using h.symm⟩)
      · next i hd => exact .inr (.inr ⟨w, i, hf, hd, h⟩)
  · cases h
  · cases h

/-- Running one step and then `k` more, when the first step has a next state. -/
theorem runSteps_succ_of_next {s t : State} {k : Nat} (h : step s = .next t) : runSteps (k + 1) s = runSteps k t := by
  simp [runSteps, h]

/-- A run that is over stays where it is. -/
theorem runSteps_of_over {s : State} (k : Nat) (h : s.status ≠ .running) : runSteps k s = s := by
  cases k with
  | zero => rfl
  | succ k =>
    cases hs : s.status with
    | running => exact absurd hs h
    | halted => simp [runSteps, step, hs]
    | faulted c r => simp [runSteps, step, hs]

end Sys2Proof.Machine
end

