-- ==== Sys2Proof/Tests/Slice0.lean ====
section
/-! SUPPORT. The model's own tests. Words and expected results are those of 95_test_vectors.md and 40_decoder.md R101, named
by their vector; the witnesses meet the hypotheses of the statements in Certificates/Slice0/Obligations.lean. -/
namespace Sys2Proof.Tests
open Sys2Proof.Machine

/-- A small constructed state (10_state.md R27: the step is defined on every state). -/
def stateWith (x : List Word) (mem : Memory) (memSize : Nat) (prog : List Byte) : State :=
  { State.resetWith 0 memSize prog with x := x, mem := mem }

/-- The next state of one step meets a check. -/
def stepGives (s : State) (check : State → Bool) : Bool :=
  match step s with
  | .next t => check t
  | .fault _ => false
  | .refused _ => false

/-- A fault with a cause, a space, an index and a value, taken with `pc` at 0. -/
def faultIs (t : State) (c : FaultCause) (w : Word) (sp : FaultSpace) (index : Nat) (value : Word) : Bool :=
  t.status == .faulted c ⟨0, w, opcodeField w, sp, BitVec.ofNat 19 index, value⟩ && t.pc == 0

/-! ### Ill-formed terms the check refuses (vectors K2, K4, K6, K8, K10, K12, K14, K16) -/
theorem test_value_too_wide : (Instr.loadConst 1048576 0).wellFormed = false := by decide
theorem test_loadConst_reg_too_wide : (Instr.loadConst 0 32).wellFormed = false := by decide
theorem test_readMem_reg_too_wide : (Instr.readMem 32 0).wellFormed = false := by decide
theorem test_readMem_addr_too_wide : (Instr.readMem 0 524288).wellFormed = false := by decide
theorem test_writeMem_addr_too_wide : (Instr.writeMem 524288 0).wellFormed = false := by decide
theorem test_writeMem_reg_too_wide : (Instr.writeMem 0 32).wellFormed = false := by decide
theorem test_sqrt_reg_too_wide : (Instr.sqrt 32 0).wellFormed = false := by decide
theorem test_sqrt_addr_too_wide : (Instr.sqrt 0 524288).wellFormed = false := by decide

/-! ### Decoding, from words written out bit by bit (30_encoding.md R62 to R65) -/

/-- E4: bit 31 unused, `reg` 10000, `value` 1 followed by 19 zeros, opcode 011101. -/
theorem test_decode_loadConst : decode 0b0_10000_10000000000000000000_011101 = .known (.loadConst 524288 16) := by decide
/-- E29: bits 31:30 unused, `addr` 65536, `reg` 00101, opcode 000100. -/
theorem test_decode_readMem : decode 0b00_0010000000000000000_00101_000100 = .known (.readMem 5 65536) := by decide
/-- E25: bits 31:30 unused, `src_reg` 00011, `addr` 65535, opcode 101011. -/
theorem test_decode_writeMem : decode 0b00_00011_0001111111111111111_101011 = .known (.writeMem 65535 3) := by decide
/-- E23: bits 31:30 unused, `addr` 200, `reg` 00001, opcode 000010. -/
theorem test_decode_sqrt : decode 0b00_0000000000011001000_00001_000010 = .known (.sqrt 1 200) := by decide
/-- U3 to U9: the neighbours of the opcodes are unknown. -/
theorem test_decode_unknown : [1, 3, 5, 28, 30, 42, 44, 63].all (fun n : Nat =>
    decode (BitVec.ofNat 32 n) == .unknown (BitVec.ofNat 6 n)) = true := by decide
/-- E5, E9, E13, E17: the largest operands pack to the words of the table. -/
theorem test_pack_corners : (encode (.loadConst 1048575 31), encode (.readMem 31 524287), encode (.writeMem 524287 31),
    encode (.sqrt 31 524287)) = (.ok 0x7FFFFFDD, .ok 0x3FFFFFC4, .ok 0x3FFFFFEB, .ok 0x3FFFFFC2) := rfl
/-- X11: bit 30 is part of LOAD_CONST's `reg`; a table row reads through `decodeTableWord`. -/
theorem test_decodeTableWord : decodeTableWord 32 0x4000001D = some (.loadConst 0 16) := by decide

/-! ### One step -/

/-- LC3. -/
theorem test_loadConst_zero_extends : stepGives (State.reset.withFetchWord 32 0x7FFFFFDD) (fun t =>
    t.readReg 31 == 0x000FFFFF && t.pc == 4 && t.status == .running) = true := by decide
/-- LC6. -/
theorem test_loadConst_missing_register : stepGives ((State.resetWith 16 65536 []).withFetchWord 32 0x4000005D) (fun t =>
    faultIs t .indexOutOfRange 0x4000005D .reg 16 0 && t.x.all (· == 0)) = true := by decide
/-- RM3. -/
theorem test_readMem_moves_all_bits : stepGives ((stateWith (List.replicate 32 0) [(100, 0xDEADBEEF)] 65536 []).withFetchWord
    32 0x000321C4) (fun t => t.readReg 7 == 0xDEADBEEF && t.readMem 100 == 0xDEADBEEF && t.pc == 4) = true := by decide
/-- RM9: both indices are bad, the address is reported. -/
theorem test_readMem_address_first : stepGives ((State.resetWith 16 65536 []).withFetchWord 32 0x08000404) (fun t =>
    faultIs t .indexOutOfRange 0x08000404 .mem 65536 0) = true := by decide
/-- WM2. -/
theorem test_writeMem_moves_all_bits : stepGives ((stateWith [0, 0, 0, 0, 0, 0, 0, 0xCAFEF00D] [] 65536 []).withFetchWord
    32 0x0E00192B) (fun t => t.readMem 100 == 0xCAFEF00D && t.readReg 7 == 0xCAFEF00D && t.pc == 4) = true := by decide
/-- WM7: both indices are bad, the source register is reported. -/
theorem test_writeMem_register_first : stepGives ((State.resetWith 16 65536 []).withFetchWord 32 0x2040002B) (fun t =>
    faultIs t .indexOutOfRange 0x2040002B .reg 16 0 && t.mem == []) = true := by decide
/-- SQ27: the largest non-negative operand. -/
theorem test_sqrt_largest_operand : stepGives ((stateWith [0, 0] [(0, 0x7FFFFFFF)] 1 []).withFetchWord 32 0x00000042) (fun t =>
    t.readReg 1 == 46340 && t.readMem 0 == 0x7FFFFFFF && t.pc == 4) = true := by decide
/-- SQ32: the operand is judged before the destination. -/
theorem test_sqrt_domain_before_register : stepGives ((stateWith (List.replicate 16 0) [(0, 0x80000000)] 65536 []).withFetchWord
    32 0x00000402) (fun t => faultIs t .domainError 0x00000402 .mem 0 0x80000000) = true := by decide
/-- SQ14, SQ15, SQ16, SQ18, SQ21, SQ25. -/
theorem test_isqrt : [624, 625, 626, 65535, 1046528, 2147395599].map isqrt = [24, 25, 25, 255, 1022, 46339] := by decide
/-- CT2. -/
theorem test_zero_word_faults : stepGives (State.reset.withFetchWord 32 0) (fun t =>
    faultIs t .unknownOpcode 0 .none 0 0) = true := by decide
/-- S6, third row: three bytes are no word. -/
theorem test_three_bytes_halt : stepGives (State.resetWith 32 65536 [0xDD, 0x1E, 0x00]) (fun t =>
    t == { State.resetWith 32 65536 [0xDD, 0x1E, 0x00] with status := .halted }) = true := by decide
/-- S7, second row, on the end state of P1. -/
theorem test_dump : dump (stateWith [625, 25] [(200, 625)] 65536 []).halt 199 201 =
    some (.ok [(199, 0), (200, 625), (201, 0)]) := rfl
/-- R198: no dump while the run goes on. -/
theorem test_dump_running : dump (stateWith [625, 25] [(200, 625)] 65536 []) 199 201 = none := rfl
/-- S8, third row: `offset` wins over `addr`. -/
theorem test_offset_wins : assemble ⟨some [{ cmd := "WRITE_MEM", srcReg := some 0, offset := some 200, addr := some 7 }]⟩ =
    .ok [0x2B, 0x32, 0x00, 0x00] := rfl
/-- A5: an unknown command fails with the entry's position, and no byte is emitted. -/
theorem test_unknown_command : assemble ⟨some [{ cmd := "LOAD_CONST", reg := some 0, value := some 123 },
    { cmd := "JUMP", addr := some 0 }]⟩ = .error (.unknownCommand 1 "JUMP") := rfl

/-! ### Witnesses: concrete states and operands that meet the hypotheses of the statements -/

/-- Two registers, two memory words and one instruction word at offset 0. -/
def small (w : Word) : State := stateWith [7, 9] [(1, 0x80000005)] 2 (wordBytes w)

/-- The state after one step, where there is one. -/
def next (s : State) : State :=
  match step s with
  | .next t => t
  | .fault _ => s
  | .refused _ => s

theorem witness_DecodePackRoundTrip : (Instr.loadConst 1048575 31).wellFormed = true ∧
    (Instr.readMem 31 524287).wellFormed = true ∧ (Instr.writeMem 524287 31).wellFormed = true ∧
    (Instr.sqrt 31 524287).wellFormed = true := by decide
theorem witness_PackDecodeClearsUnusedBits : decode 0xFFFFFFC4 = .known (.readMem 31 524287) ∧
    decode 0x3FFFFFC4 = .known (.readMem 31 524287) ∧ (Instr.loadConst 1048575 31).wellFormed = true := by decide
theorem witness_PackIsUnionOfShiftedFields_fits : 1048575 < 2 ^ Opcode.loadConst.layout.1.width ∧
    31 < 2 ^ Opcode.loadConst.layout.2.width ∧ 1048575 < 2 ^ 20 ∧ 31 < 2 ^ 5 ∧ 524287 < 2 ^ 19 := by decide
theorem witness_PackIsUnionOfShiftedFields_error : 2 ^ Opcode.loadConst.layout.1.width ≤ 1048576 ∨
    2 ^ Opcode.loadConst.layout.2.width ≤ 0 := by decide
theorem witness_PackNeverTruncates : pack .readMem 31 524287 = .ok 0x3FFFFFC4 := rfl
theorem witness_DecodeDispatchesOnLowSixBits : (0x1D : Word).extractLsb' 0 6 = 29 ∧ (0x04 : Word).extractLsb' 0 6 = 4 ∧
    (0x2B : Word).extractLsb' 0 6 = 43 ∧ (0x02 : Word).extractLsb' 0 6 = 2 ∧ (0x03 : Word).extractLsb' 0 6 ∉ [29, 4, 43, 2] := by
  decide
theorem witness_DecodedFieldsAreShiftAndMask : decode 0x7FFFFFDD = .known (.loadConst 1048575 31) ∧
    decode 0x3FFFFFC4 = .known (.readMem 31 524287) ∧ decode 0x3FFFFFEB = .known (.writeMem 524287 31) ∧
    decode 0x3FFFFFC2 = .known (.sqrt 31 524287) := by decide
theorem witness_UnusedBitsAreNotRead : (0x8000001D : Word).extractLsb' 0 6 = 29 ∧ (0xC0000002 : Word).extractLsb' 0 6 = 2 ∧
    (0xC0000004 : Word).extractLsb' 0 6 = 4 ∧ (0xC000002B : Word).extractLsb' 0 6 = 43 := by decide
theorem witness_FieldsAreIndependent_slice : ∀ k, 6 ≤ k → k < 6 + 5 →
    (0xC0000044 : Word).getLsbD k = (0x00000042 : Word).getLsbD k := by
  intro k h1 h2
  interval_cases k <;> rfl
theorem witness_FieldsAreIndependent_opcode : (∀ k, 6 ≤ k → (0x00096244 : Word).getLsbD k = (0x00096242 : Word).getLsbD k) ∧
    (0x00096244 : Word).extractLsb' 0 6 = 4 ∧ (0x00096242 : Word).extractLsb' 0 6 = 2 := by
  refine ⟨fun k h => ?_, by decide, by decide⟩
  by_cases hk : k < 32
  · interval_cases k <;> rfl
  · rw [BitVec.getLsbD_of_ge _ _ (by omega), BitVec.getLsbD_of_ge _ _ (by omega)]
theorem witness_FetchAssemblesLittleEndian : (wordBytes 0x80001EDD)[0]? = some 0xDD ∧ (wordBytes 0x80001EDD)[0 + 1]? = some 0x1E ∧
    (wordBytes 0x80001EDD)[0 + 2]? = some 0x00 ∧ (wordBytes 0x80001EDD)[0 + 3]? = some 0x80 := by decide
theorem witness_StepRunsDecodedInstruction : (small 0x5D).status = .running ∧
    fetch32 (small 0x5D).prog (small 0x5D).pc = some 0x5D ∧ decode 0x5D = .known (.loadConst 1 0) := by decide
theorem witness_StepHalts_end : State.reset.status = .running ∧ State.reset.prog.length < State.reset.pc + 4 := by decide
theorem witness_StepHalts_only : step State.reset = .next (next State.reset) ∧ (next State.reset).status = .halted :=
  ⟨rfl, rfl⟩
theorem witness_StepHalts_tiny : ([0xDD, 0x1E, 0x00] : List Byte).length ≤ 3 := by decide
theorem witness_UnknownOpcodeStopsTheMachine : (small 3).status = .running ∧
    fetch32 (small 3).prog (small 3).pc = some 3 ∧ (3 : Word).extractLsb' 0 6 ∉ [(2 : BitVec 6), 4, 29, 43] := by decide
theorem witness_ExactlyRunningStatesHaveASuccessor : (small 0).halt.runIsOver ∧ (small 0).raiseUnknown.runIsOver :=
  ⟨.inl rfl, .inr ⟨_, _, rfl⟩⟩
theorem witness_PcAdvancesByFourOrStays : step (small 0x5D) = .next (next (small 0x5D)) ∧
    step (small 0) = .next (next (small 0)) := ⟨rfl, rfl⟩
theorem witness_StepKeepsPcAlignedAndInBuffer : PcInv (small 0x5D) ∧ step (small 0x5D) = .next (next (small 0x5D)) :=
  ⟨⟨rfl, by decide⟩, rfl⟩
theorem witness_StepKeepsMemoryCanonical : MemInv (small 0x2B) ∧ step (small 0x2B) = .next (next (small 0x2B)) :=
  ⟨⟨by decide, by decide⟩, rfl⟩
theorem witness_StepKeepsValuesBelowTwoPow20 : BoundInv (State.resetWith 1 1 (wordBytes 0x03FFFFDD)) ∧
    step (State.resetWith 1 1 (wordBytes 0x03FFFFDD)) = .next (next (State.resetWith 1 1 (wordBytes 0x03FFFFDD))) := by
  refine ⟨⟨fun i => ?_, fun a => by change (0#32).toNat < _; decide⟩, rfl⟩
  cases i <;> (change (0#32).toNat < _; decide)
theorem witness_FaultRecord_unknown : step (small 0) = .next (next (small 0)) ∧
    (next (small 0)).status = .faulted .unknownOpcode ⟨0, 0, 0, .none, 0, 0⟩ := ⟨rfl, rfl⟩
/-- READ_MEM of the first address that does not exist. -/
theorem witness_FaultRecord_index : step (small 0x1004) = .next (next (small 0x1004)) ∧
    (next (small 0x1004)).status = .faulted .indexOutOfRange ⟨0, 0x1004, 4, .mem, 2, 0⟩ := ⟨rfl, rfl⟩
/-- SQRT of a word with bit 31 set. -/
theorem witness_FaultRecord_domain : step (small 0x802) = .next (next (small 0x802)) ∧
    (next (small 0x802)).status = .faulted .domainError ⟨0, 0x802, 2, .mem, 1, 0x80000005⟩ := ⟨rfl, rfl⟩
theorem witness_ProgramAndSizesAreConstant : step (small 0x2B) = .next (next (small 0x2B)) := rfl
theorem witness_FaultsArePrecise : step (small 0x802) = .next (next (small 0x802)) ∧
    ∃ info, (next (small 0x802)).status = .faulted .domainError info := ⟨rfl, _, rfl⟩
theorem witness_FsmRefinesStep : (small 0x5D).status = .running ∧ (small 0x5D).phase = .fetch := by decide
theorem witness_TickKeepsLatchesCoherent : LatchInv (small 0x5D) ∧ tick (small 0x5D) = .next ((small 0x5D).fetched 0x5D) := by
  refine ⟨fun _ => ⟨fun h => ?_, fun h => ?_⟩, rfl⟩ <;> exact absurd h (by decide)
theorem witness_EveryRunEnds : (execute [] 1 1).endsHalted ∧ ¬ (execute [0, 0, 0, 0] 1 1).endsHalted :=
  ⟨rfl, by unfold State.endsHalted; decide⟩
theorem witness_StepsMadeIsPcOverFour : (runSteps 1 (State.resetWith 1 1 (wordBytes 0x1D))).status = .running := by decide
theorem witness_DomainErrorUnreachableFromReset : ResetState (State.resetWith 1 1 (wordBytes 0x1D)) 1 1 := rfl
theorem witness_TrailingBytesAreIgnored : (wordBytes 0x1D).length % 4 = 0 ∧ ([0xDD, 0x1E, 0x00] : List Byte).length ≤ 3 := by
  decide
theorem witness_TrailingBytesAreIgnored_end : (State.resetWith 1 1 [0xDD, 0x1E, 0x00]).status = .running ∧
    (State.resetWith 1 1 [0xDD, 0x1E, 0x00]).prog.length < (State.resetWith 1 1 [0xDD, 0x1E, 0x00]).pc + 4 := by decide
theorem witness_StepReadsOnlyTheFetchedBytes :
    fetch32 (wordBytes 0x5D ++ [1, 2, 3, 4]) (small 0x5D).pc = fetch32 (small 0x5D).prog (small 0x5D).pc ∧
    step (small 0x5D) = .next (next (small 0x5D)) := ⟨rfl, rfl⟩
theorem witness_OnlyWriteMemChangesMemory : step (small 0x2B) = .next (next (small 0x2B)) ∧
    (next (small 0x2B)).readMem 0 ≠ (small 0x2B).readMem 0 := ⟨rfl, by decide⟩
theorem witness_OnlyDestinationRegistersChange : step (small 0x5D) = .next (next (small 0x5D)) ∧
    (next (small 0x5D)).readReg 0 ≠ (small 0x5D).readReg 0 := ⟨rfl, by decide⟩
theorem witness_UnencodableIndicesNeverChange : step (small 0x5D) = .next (next (small 0x5D)) ∧ 32 ≤ 32 ∧ 2 ^ 19 ≤ 524288 :=
  ⟨rfl, by decide, by decide⟩
theorem witness_StepIsSafeExactlyWhenOperandsAreInRange : (small 0x42).status = .running ∧ Fetches (small 0x42) (.sqrt 1 0) :=
  ⟨rfl, 0x42, rfl, by decide⟩
theorem witness_LoadConstLoadsTheConstant : 1048575 < 2 ^ 20 ∧ 31 < State.reset.regCount := by decide
theorem witness_LoadConstFaultsOnMissingRegister : 31 < 2 ^ 5 ∧ (State.resetWith 31 0 []).regCount ≤ 31 := by decide
theorem witness_ReadMemCopiesTheWord : 65535 < State.reset.memSize ∧ 31 < State.reset.regCount := by decide
theorem witness_ReadMemFaultsInOrder_word : 31 < 2 ^ 5 ∧ 65536 < 2 ^ 19 ∧ State.reset.memSize ≤ 65536 := by decide
theorem witness_ReadMemFaultsInOrder_register : 2 < 2 ^ 5 ∧ 1 < 2 ^ 19 ∧ 1 < (small 0).memSize ∧ (small 0).regCount ≤ 2 := by
  decide
theorem witness_WriteMemStoresTheRegister : 31 < State.reset.regCount ∧ effectiveAddress 65535 < State.reset.memSize := by
  decide
theorem witness_WriteMemFaultsInOrder_register : 2 < 2 ^ 5 ∧ 0 < 2 ^ 19 ∧ (small 0).regCount ≤ 2 := by decide
theorem witness_WriteMemFaultsInOrder_word : 1 < 2 ^ 5 ∧ 2 < 2 ^ 19 ∧ 1 < (small 0).regCount ∧ (small 0).memSize ≤ 2 := by decide
theorem witness_SqrtWritesTheExactRoot : 0 < (stateWith [0, 0] [(0, 0x7FFFFFFF)] 1 []).memSize ∧
    ((stateWith [0, 0] [(0, 0x7FFFFFFF)] 1 []).readMem 0).toNat < 2 ^ 31 ∧
    1 < (stateWith [0, 0] [(0, 0x7FFFFFFF)] 1 []).regCount := by decide
theorem witness_SqrtFaultsInOrder_word : 0 < 2 ^ 5 ∧ 2 < 2 ^ 19 ∧ (small 0).memSize ≤ 2 := by decide
theorem witness_SqrtFaultsInOrder_domain : 0 < 2 ^ 5 ∧ 0 < 2 ^ 19 ∧ 0 < (stateWith [0] [(0, 0x80000000)] 1 []).memSize ∧
    ((stateWith [0] [(0, 0x80000000)] 1 []).readMem 0).toInt < 0 := by decide
theorem witness_SqrtFaultsInOrder_register : 2 < 2 ^ 5 ∧ 0 < 2 ^ 19 ∧ 0 < (small 0).memSize ∧
    0 ≤ ((small 0).readMem 0).toInt ∧ (small 0).regCount ≤ 2 := by decide
theorem witness_AddressBeyondMemorySizeFaults : (Instr.writeMem 2 0).addrOperand = some 2 ∧
    (small 0).memSize ≤ effectiveAddress 2 := by decide
theorem witness_IsqrtIsTheExactFloorRoot : 25 * 25 ≤ 675 ∧ 675 < (25 + 1) * (25 + 1) ∧ 624 ≤ 625 := by decide
theorem witness_StoreThenLoadCopiesTheRegister : 0 < (small 0).regCount ∧ 1 < (small 0).regCount ∧ 1 < (small 0).memSize := by
  decide
theorem witness_CanonicalMemories : Memory.wf [(1, 5), (2, 6)] ∧
    ∀ a, Memory.read [(1, 5), (2, 6)] a = Memory.read (Memory.write [(2, 6)] 1 5) a := ⟨by decide, fun _ => rfl⟩
theorem witness_DumpListsTheRangeInOrder : (small 0).halt.runIsOver ∧ (small 0).status = .running ∧ ((1 : Int) > 0 ∧ (-1 : Int) < 0 ∧ (2 : Int) ≥ (small 0).memSize) ∧
    (0 : Int) ≤ 1 ∧ (1 : Int) ≤ 1 ∧ (1 : Int) < (small 0).memSize ∧ ((0 : Nat) : Int) ≤ 1 - 1 := ⟨.inl rfl, by decide⟩
theorem witness_ReadOutOnlyWhenTheRunIsOver : (small 0).halt.runIsOver ∧ (small 0).status = .running := ⟨.inl rfl, rfl⟩
theorem witness_PlacedWordIsTheWordFetchedNext : 4 < (wordBytes 0 ++ [9]).length ∧ State.reset.pc + 4 ≤ 4 := by decide
theorem witness_AssembledProgramsDecodeToTheirEntries : 
    assemble ⟨some [{ cmd := "LOAD_CONST", reg := some 0, value := some 123 }]⟩ = .ok [0xDD, 0x1E, 0x00, 0x00] := rfl
theorem witness_OffsetTakesPrecedenceOverAddr : "READ_MEM" ≠ "WRITE_MEM" := by decide
theorem witness_CommandNamesAreTheFourOpcodeNames : "JUMP" ∉ ["LOAD_CONST", "READ_MEM", "WRITE_MEM", "SQRT"] := by decide

end Sys2Proof.Tests
end

/-! ### The fetch of a word (20_memory.md R41) -/

section
namespace Sys2Proof

/-- A byte shifted to a byte position of a word loses no bit. -/
theorem toNat_byte_shiftLeft (b : Byte) {k : Nat} (hk : k ≤ 24) :
    (b.setWidth 32 <<< k).toNat = b.toNat <<< k := by
  have hfits : b.toNat <<< k < 2 ^ 32 :=
    calc b.toNat <<< k = b.toNat * 2 ^ k := Nat.shiftLeft_eq _ _
      _ < 2 ^ 8 * 2 ^ k := Nat.mul_lt_mul_of_pos_right b.isLt (Nat.two_pow_pos k)
      _ = 2 ^ (8 + k) := (Nat.pow_add 2 8 k).symm
      _ ≤ 2 ^ 32 := Nat.pow_le_pow_right (by decide) (by omega)
  rw [BitVec.toNat_shiftLeft, BitVec.toNat_setWidth_of_le (by decide), Nat.mod_eq_of_lt hfits]

/-- The slice at the position a byte was shifted to is that byte. -/
theorem extractLsb'_byte_shiftLeft_same (b : Byte) {k : Nat} (hk : k ≤ 24) :
    (b.setWidth 32 <<< k).extractLsb' k 8 = b := by
  refine BitVec.eq_of_getLsbD_eq fun j hj => ?_
  have hword : k + j < 32 := by omega
  simp [hj, hword]

/-- A shifted byte leaves every slice that it does not overlap at 0. -/
theorem extractLsb'_byte_shiftLeft_other (b : Byte) {k p : Nat} (h : p + 8 ≤ k ∨ k + 8 ≤ p) :
    (b.setWidth 32 <<< k).extractLsb' p 8 = 0 := by
  refine BitVec.eq_of_getLsbD_eq fun j hj => ?_
  rcases h with hbelow | habove
  · have hlow : p + j < k := by omega
    simp [hlow]
  · have hhigh : b.getLsbD (p + j - k) = false := BitVec.getLsbD_of_ge _ _ (by omega)
    simp [hhigh]

/-- The first byte of a fetched word stands at shift 0, as the others stand at 8, 16 and 24. -/
theorem wordOfBytes_eq (b0 b1 b2 b3 : Byte) : wordOfBytes b0 b1 b2 b3 =
    b0.setWidth 32 <<< 0 ||| b1.setWidth 32 <<< 8 ||| b2.setWidth 32 <<< 16 ||| b3.setWidth 32 <<< 24 := by
  rw [BitVec.shiftLeft_zero, wordOfBytes]

/-- The number of a fetched word is the OR of the shifted numbers of its bytes. -/
theorem wordOfBytes_toNat (b0 b1 b2 b3 : Byte) :
    (wordOfBytes b0 b1 b2 b3).toNat = b0.toNat ||| b1.toNat <<< 8 ||| b2.toNat <<< 16 ||| b3.toNat <<< 24 := by
  simp only [wordOfBytes_eq, BitVec.toNat_or]
  simp (disch := decide) only [toNat_byte_shiftLeft, Nat.shiftLeft_zero]

/-- Serialising a fetched word gives the fetched bytes back. -/
theorem wordBytes_wordOfBytes (b0 b1 b2 b3 : Byte) : wordBytes (wordOfBytes b0 b1 b2 b3) = [b0, b1, b2, b3] := by
  simp only [wordBytes, wordOfBytes_eq, BitVec.extractLsb'_or]
  simp (disch := decide) [extractLsb'_byte_shiftLeft_same, extractLsb'_byte_shiftLeft_other, -BitVec.shiftLeft_zero]

/-- Where four bytes are left the fetch gives their word. -/
theorem fetch32_eq_some_of_le {prog : List Byte} {p : Nat} (h : p + 4 ≤ prog.length) :
    fetch32 prog p = some (wordOfBytes prog[p] prog[p + 1] prog[p + 2] prog[p + 3]) := by
  have hdrop : prog.drop p = prog[p] :: prog[p + 1] :: prog[p + 2] :: prog[p + 3] :: prog.drop (p + 4) := by
    simp only [← List.drop_eq_getElem_cons]
  simp only [fetch32, hdrop]

/-- A fetch is defined exactly where four bytes are left. -/
theorem exists_fetch32_iff {prog : List Byte} {p : Nat} : (∃ w, fetch32 prog p = some w) ↔ p + 4 ≤ prog.length :=
  ⟨fun ⟨_, h⟩ => fetch32_lt h, fun h => ⟨_, fetch32_eq_some_of_le h⟩⟩

/-- Bytes put behind a buffer of whole words, too few for one more word, change no fetch at a word boundary. -/
theorem fetch32_append_trailing {prog extra : List Byte} {p : Nat} (hwords : prog.length % 4 = 0)
    (hextra : extra.length ≤ 3) (hp : p % 4 = 0) : fetch32 (prog ++ extra) p = fetch32 prog p := by
  have hlen : (prog ++ extra).length = prog.length + extra.length := List.length_append
  by_cases hin : p + 4 ≤ prog.length
  · rw [fetch32_eq_some_of_le hin, fetch32_eq_some_of_le (by omega)]
    simp (disch := omega) only [List.getElem_append_left]
  · rw [fetch32_eq_none.mpr (by omega), fetch32_eq_none.mpr (by omega)]

/-- Settles O12: the word of the fetch is `wordOfBytes` of the four bytes, whose shifted bytes do not overlap. -/
theorem fetchAssemblesLittleEndian : Obligations.FetchAssemblesLittleEndian := by
  unfold Obligations.FetchAssemblesLittleEndian
  refine fun prog p => ⟨fun b0 b1 b2 b3 h0 h1 h2 h3 => ?_, exists_fetch32_iff⟩
  obtain ⟨hlt0, rfl⟩ := List.getElem?_eq_some_iff.mp h0
  obtain ⟨hlt1, rfl⟩ := List.getElem?_eq_some_iff.mp h1
  obtain ⟨hlt2, rfl⟩ := List.getElem?_eq_some_iff.mp h2
  obtain ⟨hlt3, rfl⟩ := List.getElem?_eq_some_iff.mp h3
  have hbytes := wordBytes_wordOfBytes prog[p] prog[p + 1] prog[p + 2] prog[p + 3]
  simp only [wordBytes, List.cons.injEq, and_true] at hbytes
  exact ⟨_, fetch32_eq_some_of_le hlt3, wordOfBytes_toNat _ _ _ _, hbytes⟩

end Sys2Proof
end

/-! ### Another program buffer under a state (20_memory.md R40, R45) -/

section
namespace Sys2Proof.Machine

/-- The state with another program buffer, everything else as it was. -/
def State.withProg (s : State) (prog : List Byte) : State := { s with prog := prog }

/-- What a step answers, with another program buffer in the next state. -/
def StepResult.withProg (prog : List Byte) : StepResult → StepResult
  | .next t => .next (t.withProg prog)
  | .fault f => .fault f
  | .refused r => .refused r

section withProg
variable (s : State) (q : List Byte)
@[simp] theorem State.withProg_pc : (s.withProg q).pc = s.pc := rfl
@[simp] theorem State.withProg_status : (s.withProg q).status = s.status := rfl
@[simp] theorem State.withProg_prog : (s.withProg q).prog = q := rfl
@[simp] theorem StepResult.withProg_next : StepResult.withProg q (.next s) = .next (s.withProg q) := rfl

/-- The register check does not look at the program buffer. -/
theorem requireReg_withProg (i : Nat) (go : StepResult) :
    requireReg (s.withProg q) i (StepResult.withProg q go) = StepResult.withProg q (requireReg s i go) := by
  rcases requireReg_cases s i go with ⟨h, e⟩ | ⟨h, e⟩
  · rw [e]; exact if_pos h
  · rw [e]; exact if_neg (Nat.not_le.mpr h)

/-- The address check does not look at the program buffer. -/
theorem requireAddr_withProg (a : Nat) (go : StepResult) :
    requireAddr (s.withProg q) a (StepResult.withProg q go) = StepResult.withProg q (requireAddr s a go) := by
  rcases requireAddr_cases s a go with ⟨h, e⟩ | ⟨h, e⟩
  · rw [e]; exact if_pos h
  · rw [e]; exact if_neg (Nat.not_le.mpr h)

/-- The meaning of an instruction does not look at the program buffer. -/
theorem exec_withProg (i : Instr) : exec i (s.withProg q) = StepResult.withProg q (exec i s) := by
  cases i with
  | loadConst value reg =>
    simp only [exec, execLoadConst, ← requireReg_withProg]
    rfl
  | readMem reg addr =>
    simp only [exec, execReadMem, ← requireAddr_withProg, ← requireReg_withProg]
    rfl
  | writeMem addr srcReg =>
    simp only [exec, execWriteMem, ← requireAddr_withProg, ← requireReg_withProg]
    rfl
  | sqrt reg addr =>
    simp only [exec, execSqrt, ← requireAddr_withProg, ← requireReg_withProg, apply_ite (StepResult.withProg q)]
    rfl

variable {s q}

/-- A RUNNING machine reads of the program buffer only the word fetched at `pc`. -/
theorem stepRunning_withProg (hfetch : fetch32 q s.pc = fetch32 s.prog s.pc) :
    stepRunning (s.withProg q) = StepResult.withProg q (stepRunning s) := by
  simp only [stepRunning, State.withProg_prog, State.withProg_pc, hfetch]
  cases fetch32 s.prog s.pc with
  | none => rfl
  | some w =>
    dsimp only
    cases decode w with
    | unknown op => rfl
    | known i => exact exec_withProg ((s.fetched w).decoded i) q i

/-- A step reads of the program buffer only the word fetched at `pc` (41_control_fsm.md R121). -/
theorem step_withProg (hfetch : fetch32 q s.pc = fetch32 s.prog s.pc) :
    step (s.withProg q) = StepResult.withProg q (step s) := by
  unfold step
  rw [State.withProg_status]
  cases s.status with
  | running => exact stepRunning_withProg hfetch
  | halted => rfl
  | faulted c r => rfl

end withProg

/-- An instruction leaves the program buffer alone; it leaves `pc` or moves it on by 4. -/
theorem exec_prog_pc {i : Instr} {s t : State} (h : exec i s = .next t) :
    t.prog = s.prog ∧ (t.pc = s.pc ∨ t.pc = s.pc + 4) := by
  rcases exec_cases i s with ⟨sp, n, e, -⟩ | ⟨reg, addr, -, -, -, e⟩ | ⟨reg, v, -, e, -⟩ | ⟨addr, srcReg, -, -, -, e⟩ <;>
    obtain rfl : _ = t := Host.Outcome.next.inj (e.symm.trans h)
  · exact ⟨rfl, .inl rfl⟩
  · exact ⟨rfl, .inl rfl⟩
  · exact ⟨rfl, .inr rfl⟩
  · exact ⟨rfl, .inr rfl⟩

/-- A step leaves the program buffer alone; it leaves `pc` or moves it on by 4 (10_state.md R28). -/
theorem step_prog_pc {s t : State} (h : step s = .next t) : t.prog = s.prog ∧ (t.pc = s.pc ∨ t.pc = s.pc + 4) := by
  obtain ⟨-, ⟨-, rfl⟩ | ⟨w, op, -, -, rfl⟩ | ⟨w, i, -, -, hexec⟩⟩ := step_cases h
  · exact ⟨rfl, .inl rfl⟩
  · exact ⟨rfl, .inl rfl⟩
  · simpa using exec_prog_pc hexec

/-- A run from a word boundary of a buffer of whole words goes the same way with up to three bytes put behind it. -/
theorem runSteps_withProg_trailing {prog extra : List Byte} (hwords : prog.length % 4 = 0) (hextra : extra.length ≤ 3)
    (k : Nat) {s : State} (hprog : s.prog = prog) (hpc : s.pc % 4 = 0) :
    runSteps k (s.withProg (prog ++ extra)) = (runSteps k s).withProg (prog ++ extra) := by
  induction k generalizing s with
  | zero => rfl
  | succ k ih =>
    have hfetch : fetch32 (prog ++ extra) s.pc = fetch32 s.prog s.pc := by
      rw [hprog, fetch32_append_trailing hwords hextra hpc]
    have hstep := step_withProg hfetch
    cases hs : step s with
    | next t =>
      rw [hs, StepResult.withProg_next] at hstep
      obtain ⟨htprog, htpc⟩ := step_prog_pc hs
      rw [runSteps_succ_of_next hs, runSteps_succ_of_next hstep]
      exact ih (htprog.trans hprog) (by omega)
    | fault f => rw [hs] at hstep; simp only [runSteps, hs, hstep, StepResult.withProg]
    | refused r => rw [hs] at hstep; simp only [runSteps, hs, hstep, StepResult.withProg]

/-- Fewer than four bytes left: a RUNNING machine halts (41_control_fsm.md R112). -/
theorem step_eq_halt {s : State} (hr : s.status = .running) (hend : s.prog.length < s.pc + 4) :
    step s = .next s.halt := by
  simp [step_running hr, stepRunning, fetch32_eq_none.mpr hend]

/-- Up to three bytes behind a buffer of whole words change a run's end state in the buffer only. -/
theorem execute_append_trailing {prog extra : List Byte} (regCount memSize : Nat) (hwords : prog.length % 4 = 0)
    (hextra : extra.length ≤ 3) :
    execute (prog ++ extra) regCount memSize = (execute prog regCount memSize).withProg (prog ++ extra) := by
  have hfuel : (prog ++ extra).length / 4 = prog.length / 4 := by
    rw [List.length_append]
    omega
  rw [execute, hfuel]
  exact runSteps_withProg_trailing hwords hextra _ (s := State.resetWith regCount memSize prog) rfl rfl

/-- A buffer too short for one word ends HALTED in the reset state. -/
theorem execute_tiny {prog : List Byte} (regCount memSize : Nat) (htiny : prog.length ≤ 3) :
    execute prog regCount memSize = (State.resetWith regCount memSize prog).halt := by
  have hfuel : prog.length / 4 = 0 := by omega
  have hstep : step (State.resetWith regCount memSize prog) = .next (State.resetWith regCount memSize prog).halt :=
    step_eq_halt rfl (Nat.lt_succ_of_le htiny)
  rw [execute, hfuel, runSteps_succ_of_next hstep, runSteps]

/-- Settles O33: the fetch at a word boundary does not see the trailing bytes, and a step reads the buffer only through
the fetch, so the two runs go side by side. -/
theorem trailingBytesAreIgnored : Obligations.TrailingBytesAreIgnored := by
  unfold Obligations.TrailingBytesAreIgnored
  exact ⟨fun _ _ regCount memSize hwords hextra => execute_append_trailing regCount memSize hwords hextra,
    fun s hr hend => ⟨s.halt, step_eq_halt hr hend, s.halt_status⟩,
    fun _ regCount memSize htiny => execute_tiny regCount memSize htiny⟩

end Sys2Proof.Machine
end

/-! ### The packed word and its fields (30_encoding.md R72, R73) -/

section
namespace Sys2Proof

section layout
variable (op : Opcode)

/-- Field B starts where the opcode ends (R61). -/
theorem Opcode.layout_fst_offset : op.layout.1.offset = 6 := by cases op <;> rfl

/-- Field C starts where field B ends (R61). -/
theorem Opcode.layout_snd_offset : op.layout.2.offset = 6 + op.layout.1.width := by cases op <;> rfl

/-- The unused bits start where field C ends (R61, R68). -/
theorem Opcode.layout_snd_end : 6 + op.layout.1.width + op.layout.2.width = 32 - op.unusedBits := by cases op <;> rfl

end layout

/-- Above a number of at most `k` bits, OR with a number shifted by `k` is addition. -/
theorem or_shiftLeft_eq_add {a k : Nat} (b : Nat) (ha : a < 2 ^ k) : a ||| b <<< k = a + b * 2 ^ k := by
  rw [Nat.or_comm, ← Nat.shiftLeft_add_eq_or_of_lt ha, Nat.shiftLeft_eq, Nat.add_comm]

/-- A number of at most `n` bits put above one of at most `k` bits makes a number of at most `k + n` bits. -/
theorem add_mul_two_pow_lt {a b k n : Nat} (ha : a < 2 ^ k) (hb : b < 2 ^ n) : a + b * 2 ^ k < 2 ^ (k + n) :=
  calc a + b * 2 ^ k < (b + 1) * 2 ^ k := by rw [Nat.succ_mul]; omega
    _ ≤ 2 ^ n * 2 ^ k := Nat.mul_le_mul_right _ hb
    _ = 2 ^ (k + n) := by rw [Nat.add_comm, Nat.pow_add]

/-- Shifting the lower number out leaves the upper one. -/
theorem add_mul_two_pow_shiftRight {a k : Nat} (b : Nat) (ha : a < 2 ^ k) : (a + b * 2 ^ k) >>> k = b := by
  rw [Nat.shiftRight_eq_div_pow, Nat.add_mul_div_right _ _ (Nat.two_pow_pos k), Nat.div_eq_of_lt ha, Nat.zero_add]

section packWord
variable {op : Opcode} {b c : Nat} (hb : b < 2 ^ op.layout.1.width) (hc : c < 2 ^ op.layout.2.width)

include hb

/-- The opcode and field B together stay below field C. -/
theorem opcode_add_fst_lt : op.code.toNat + b * 2 ^ 6 < 2 ^ op.layout.2.offset := by
  rw [op.layout_snd_offset]
  exact add_mul_two_pow_lt op.code.isLt hb

/-- The opcode and the fields are disjoint: their OR is their sum (R72). -/
theorem opcode_or_fields_eq_sum : op.code.toNat ||| b <<< op.layout.1.offset ||| c <<< op.layout.2.offset =
    op.code.toNat + b * 2 ^ op.layout.1.offset + c * 2 ^ op.layout.2.offset := by
  rw [op.layout_fst_offset, or_shiftLeft_eq_add b op.code.isLt, or_shiftLeft_eq_add c (opcode_add_fst_lt hb)]

include hc

/-- The sum of the opcode and the shifted fields leaves the unused bits 0 (R68). -/
theorem opcode_add_fields_lt :
    op.code.toNat + b * 2 ^ op.layout.1.offset + c * 2 ^ op.layout.2.offset < 2 ^ (32 - op.unusedBits) := by
  rw [← op.layout_snd_end, ← op.layout_snd_offset, op.layout_fst_offset]
  exact add_mul_two_pow_lt (opcode_add_fst_lt hb) hc

/-- The packed word as a sum. -/
theorem packWord_toNat_eq_sum : (packWord op b c).toNat =
    op.code.toNat + b * 2 ^ op.layout.1.offset + c * 2 ^ op.layout.2.offset := by
  have hword := (opcode_add_fields_lt hb hc).trans_le (Nat.pow_le_pow_right (by decide) (Nat.sub_le 32 op.unusedBits))
  rw [packWord, opcode_or_fields_eq_sum hb, BitVec.toNat_ofNat, Nat.mod_eq_of_lt hword]

/-- The packed word with the fields above the opcode grouped. -/
theorem packWord_toNat_eq_nested :
    (packWord op b c).toNat = op.code.toNat + (b + c * 2 ^ op.layout.1.width) * 2 ^ 6 := by
  rw [packWord_toNat_eq_sum hb hc, op.layout_fst_offset, op.layout_snd_offset, Nat.pow_add]
  ring

/-- The opcode field of a packed word is the opcode. -/
theorem opcodeField_packWord : opcodeField (packWord op b c) = op.code := by
  refine BitVec.eq_of_toNat_eq ?_
  rw [opcodeField, BitVec.extractLsb'_toNat, Nat.shiftRight_zero, packWord_toNat_eq_nested hb hc,
    Nat.add_mul_mod_self_right, Nat.mod_eq_of_lt op.code.isLt]

/-- A packed word shifted past its opcode holds its two fields. -/
theorem packWord_shiftRight_opcode : (packWord op b c).toNat >>> 6 = b + c * 2 ^ op.layout.1.width := by
  rw [packWord_toNat_eq_nested hb hc, add_mul_two_pow_shiftRight _ op.code.isLt]

/-- Field B of a packed word is what was packed (R73). -/
theorem extract_fst_packWord : op.layout.1.extract (packWord op b c) = b := by
  rw [Field.extract, op.layout_fst_offset, packWord_shiftRight_opcode hb hc, Nat.add_mul_mod_self_right, Nat.mod_eq_of_lt hb]

/-- Field C of a packed word is what was packed (R73). -/
theorem extract_snd_packWord : op.layout.2.extract (packWord op b c) = c := by
  rw [Field.extract, op.layout_snd_offset, Nat.shiftRight_add, packWord_shiftRight_opcode hb hc,
    add_mul_two_pow_shiftRight _ hb, Nat.mod_eq_of_lt hc]

/-- The word pack gives for fields that fit: union, sum, and the unused bits 0 (R72). -/
theorem exists_pack_eq_union : ∃ w, pack op b c = .ok w ∧
    w.toNat = op.code.toNat ||| b <<< op.layout.1.offset ||| c <<< op.layout.2.offset ∧
    w.toNat = op.code.toNat + b * 2 ^ op.layout.1.offset + c * 2 ^ op.layout.2.offset ∧
    w.toNat < 2 ^ (32 - op.unusedBits) :=
  have hsum := packWord_toNat_eq_sum hb hc
  ⟨packWord op b c, pack_of_fits hb hc, hsum.trans (opcode_or_fields_eq_sum hb).symm, hsum,
    hsum.trans_lt (opcode_add_fields_lt hb hc)⟩

end packWord

/-- Pack rejects a field that does not fit (R73). -/
theorem pack_of_not_fits {op : Opcode} {b c : Nat} (h : 2 ^ op.layout.1.width ≤ b ∨ 2 ^ op.layout.2.width ≤ c) :
    ∃ e, pack op b c = .error e := by
  unfold pack
  split_ifs with hb hc
  · exact ⟨_, rfl⟩
  · exact ⟨_, rfl⟩
  · rw [Bool.not_eq_false, fits_iff] at hb hc
    omega

/-- Pack answers with a word exactly when both fields fit, and then with the packed word (R72, R73). -/
theorem pack_eq_ok_iff {op : Opcode} {b c : Nat} {w : Word} : pack op b c = .ok w ↔
    (b < 2 ^ op.layout.1.width ∧ c < 2 ^ op.layout.2.width) ∧ w = packWord op b c := by
  by_cases h : b < 2 ^ op.layout.1.width ∧ c < 2 ^ op.layout.2.width
  · simp [pack_of_fits h.1 h.2, h, eq_comm]
  · obtain ⟨e, he⟩ := pack_of_not_fits (op := op) (b := b) (c := c) (by omega)
    simp [he, h]

/-- An instruction is encoded exactly when both operands fit their fields (R73). -/
theorem exists_encode_iff (i : Instr) : (∃ w, encode i = .ok w) ↔
    i.operands.1 < 2 ^ i.opcode.layout.1.width ∧ i.operands.2 < 2 ^ i.opcode.layout.2.width := by
  simp [encode, pack_eq_ok_iff]

/-- Settles O3: opcode and fields occupy disjoint bit ranges, so their OR is their sum and nothing reaches the unused bits. -/
theorem packIsUnionOfShiftedFields : Obligations.PackIsUnionOfShiftedFields := by
  unfold Obligations.PackIsUnionOfShiftedFields
  have hunion (op : Opcode) {b c : Nat} (hb : b < 2 ^ op.layout.1.width) (hc : c < 2 ^ op.layout.2.width) :
      ∃ w, pack op b c = .ok w ∧
        w.toNat = op.code.toNat ||| b <<< op.layout.1.offset ||| c <<< op.layout.2.offset ∧
        w.toNat < 2 ^ (32 - op.unusedBits) := by
    obtain ⟨w, hw, hor, -, hlt⟩ := exists_pack_eq_union hb hc
    exact ⟨w, hw, hor, hlt⟩
  exact ⟨fun _ _ _ hb hc => exists_pack_eq_union hb hc, fun _ _ _ => pack_of_not_fits,
    fun _ _ hvalue hreg => hunion .loadConst hvalue hreg,
    fun _ _ hreg haddr => ⟨hunion .readMem hreg haddr, hunion .writeMem haddr hreg, hunion .sqrt hreg haddr⟩⟩

/-- Settles O4: pack gives a word only when both fields fit, and the fields of that word are then the ones packed. -/
theorem packNeverTruncates : Obligations.PackNeverTruncates := by
  unfold Obligations.PackNeverTruncates
  refine ⟨fun i => (exists_encode_iff i).trans i.wellFormed_iff.symm, fun op b c w hw => ?_,
    fun value reg => (exists_encode_iff (.loadConst value reg)).trans ?_,
    fun reg addr => (exists_encode_iff (.readMem reg addr)).trans ?_,
    fun addr srcReg => (exists_encode_iff (.writeMem addr srcReg)).trans ?_,
    fun reg addr => (exists_encode_iff (.sqrt reg addr)).trans ?_⟩
  · obtain ⟨⟨hb, hc⟩, rfl⟩ := pack_eq_ok_iff.mp hw
    exact ⟨opcodeField_packWord hb hc, extract_fst_packWord hb hc, extract_snd_packWord hb hc⟩
  all_goals exact and_congr Nat.lt_succ_iff Nat.lt_succ_iff

end Sys2Proof
end

/-! ### The decoder's slices and the word through its bytes (40_decoder.md R92, R94, R98) -/

section
namespace Sys2Proof

/-- A byte of a word, shifted back to its place, holds that byte's bits of the word and no others. -/
theorem getLsbD_byte_in_place (w : Word) (k : Nat) {i : Nat} (hi : i < 32) :
    ((w.extractLsb' k 8).setWidth 32 <<< k).getLsbD i = (decide (k ≤ i ∧ i < k + 8) && w.getLsbD i) := by
  by_cases hbelow : i < k
  · have hout : ¬ k ≤ i := Nat.not_le.mpr hbelow
    simp [hbelow, hout]
  · obtain ⟨j, rfl⟩ := Nat.exists_eq_add_of_le (Nat.not_lt.mp hbelow)
    simp [hi]

/-- The word of a word's four bytes is that word: each bit lies in one byte (30_encoding.md R75). -/
theorem wordOfBytes_extract (w : Word) :
    wordOfBytes (w.extractLsb' 0 8) (w.extractLsb' 8 8) (w.extractLsb' 16 8) (w.extractLsb' 24 8) = w := by
  refine BitVec.eq_of_getLsbD_eq fun i hi => ?_
  have hcover : (decide (0 ≤ i ∧ i < 0 + 8) || decide (8 ≤ i ∧ i < 8 + 8) || decide (16 ≤ i ∧ i < 16 + 8) ||
      decide (24 ≤ i ∧ i < 24 + 8)) = true := by
    simp only [← Bool.decide_or, decide_eq_true_eq]
    omega
  simp only [wordOfBytes_eq, BitVec.getLsbD_or, getLsbD_byte_in_place w _ hi, ← Bool.and_or_distrib_right, hcover,
    Bool.true_and]

/-- A serialised word fetches back (30_encoding.md R75, 20_memory.md R41). -/
theorem fetch32_wordBytes (w : Word) : fetch32 (wordBytes w) 0 = some w := congrArg some (wordOfBytes_extract w)

/-- Decoding the packed word of fields that fit gives the opcode with those fields. -/
theorem decode_packWord {op : Opcode} {b c : Nat} (hb : b < 2 ^ op.layout.1.width) (hc : c < 2 ^ op.layout.2.width) :
    decode (packWord op b c) = .known (Instr.ofFields op b c) := by
  rw [decode_of_opcode (opcodeField_packWord hb hc), extract_fst_packWord hb hc, extract_snd_packWord hb hc]

/-- Settles O1: pack puts the opcode and the fields where decode reads them, and a word is the word of its bytes. -/
theorem decodePackRoundTrip : Obligations.DecodePackRoundTrip := by
  unfold Obligations.DecodePackRoundTrip
  refine ⟨fun i hi => ?_, by decide, by decide, by decide⟩
  obtain ⟨hb, hc⟩ := i.wellFormed_iff.mp hi
  have hdecode := decode_packWord hb hc
  rw [Instr.ofFields_eta] at hdecode
  exact ⟨packWord i.opcode i.operands.1 i.operands.2, pack_of_fits hb hc, hdecode, fetch32_wordBytes _⟩

/-- A known verdict holds the opcode that `w[5:0]` names, with the fields the table gives that opcode. -/
theorem decode_eq_known {w : Word} {i : Instr} (h : decode w = .known i) : ∃ op, opcodeField w = op.code ∧
    i = Instr.ofFields op (op.layout.1.extract w) (op.layout.2.extract w) := by
  rcases decode_cases w with ⟨op, hop, hknown⟩ | ⟨-, hunknown⟩
  · exact ⟨op, hop, Verdict.known.inj (h.symm.trans hknown)⟩
  · cases h.symm.trans hunknown

/-- Decode gives well-formed instructions only: an extracted field fits its width (40_decoder.md R94). -/
theorem wellFormed_of_decode {w : Word} {i : Instr} (h : decode w = .known i) : i.wellFormed = true := by
  obtain ⟨op, -, rfl⟩ := decode_eq_known h
  rw [Instr.wellFormed_iff, Instr.ofFields_opcode, Instr.ofFields_operands]
  exact ⟨Field.extract_lt _ w, Field.extract_lt _ w⟩

/-- A field is the word shifted right and masked (40_decoder.md R94). -/
theorem Field.extract_eq_shift_mask (f : Field) (w : Word) (hwidth : f.width ≤ 32) :
    f.extract w = ((w >>> f.offset) &&& BitVec.ofNat 32 (2 ^ f.width - 1)).toNat := by
  have hmask : 2 ^ f.width - 1 < 2 ^ 32 :=
    (Nat.sub_one_lt (Nat.two_pow_pos _).ne').trans_le (Nat.pow_le_pow_right (by decide) hwidth)
  rw [BitVec.toNat_and, BitVec.toNat_ushiftRight, BitVec.toNat_ofNat, Nat.mod_eq_of_lt hmask,
    Nat.and_two_pow_sub_one_eq_mod, Field.extract]

/-- Settles O6: decode's fields are extracted by the layout table, and extraction is a shift and a mask. -/
theorem decodedFieldsAreShiftAndMask : Obligations.DecodedFieldsAreShiftAndMask := by
  unfold Obligations.DecodedFieldsAreShiftAndMask
  refine fun w i h => ⟨wellFormed_of_decode h, ?_⟩
  obtain ⟨op, -, rfl⟩ := decode_eq_known h
  have hfst : op.layout.1.width ≤ 32 := by cases op <;> decide
  have hsnd : op.layout.2.width ≤ 32 := by cases op <;> decide
  have hfields := And.intro (op.layout.1.extract_eq_shift_mask w hfst) (op.layout.2.extract_eq_shift_mask w hsnd)
  cases op <;> exact hfields

/-- A field is its slice of the word, as a number (40_decoder.md R93). -/
theorem Field.extract_eq_slice (f : Field) (w : Word) : f.extract w = (w.extractLsb' f.offset f.width).toNat :=
  (BitVec.extractLsb'_toNat ..).symm

/-- The word of a known opcode decodes to its slices at the offsets of the layout table. -/
theorem decode_of_opcode_slices {w : Word} {op : Opcode} (h : opcodeField w = op.code) :
    decode w = .known (Instr.ofFields op (w.extractLsb' op.layout.1.offset op.layout.1.width).toNat
      (w.extractLsb' op.layout.2.offset op.layout.2.width).toNat) := by
  rw [decode_of_opcode h, Field.extract_eq_slice, Field.extract_eq_slice]

/-- A word whose `w[5:0]` is no opcode's code has the verdict unknown (40_decoder.md R95). -/
theorem decode_of_no_opcode {w : Word} (h : ∀ op : Opcode, opcodeField w ≠ op.code) :
    decode w = .unknown (opcodeField w) := by
  rcases decode_cases w with ⟨op, hop, -⟩ | ⟨-, hunknown⟩
  · exact absurd hop (h op)
  · exact hunknown

/-- Settles O5: a word with an opcode's code decodes by that opcode's row of the layout table, any other word to unknown. -/
theorem decodeDispatchesOnLowSixBits : Obligations.DecodeDispatchesOnLowSixBits := by
  unfold Obligations.DecodeDispatchesOnLowSixBits
  refine fun w => ⟨decode_of_opcode_slices (op := .loadConst), decode_of_opcode_slices (op := .readMem),
    decode_of_opcode_slices (op := .writeMem), decode_of_opcode_slices (op := .sqrt),
    fun hloadConst hreadMem hwriteMem hsqrt => decode_of_no_opcode fun op => ?_⟩
  cases op with
  | loadConst => exact hloadConst
  | readMem => exact hreadMem
  | writeMem => exact hwriteMem
  | sqrt => exact hsqrt

end Sys2Proof
end

/-! ### Canonical words (30_encoding.md R68, R74, R76) -/

section
namespace Sys2Proof

section knownOpcode
variable {w : Word} {op : Opcode} (h : opcodeField w = op.code)

include h

/-- Clearing the unused bits of a word of known opcode is masking with the bits of its opcode and fields. -/
theorem clearUnused_of_opcode : clearUnused w = w &&& BitVec.ofNat 32 (2 ^ (32 - op.unusedBits) - 1) := by
  simp [clearUnused, h]

/-- As a number, that is the remainder below the unused bits. -/
theorem clearUnused_toNat : (clearUnused w).toNat = w.toNat % 2 ^ (32 - op.unusedBits) := by
  have hmask : 2 ^ (32 - op.unusedBits) - 1 < 2 ^ 32 :=
    (Nat.sub_one_lt (Nat.two_pow_pos _).ne').trans_le (Nat.pow_le_pow_right (by decide) (Nat.sub_le ..))
  rw [clearUnused_of_opcode h, BitVec.toNat_and, BitVec.toNat_ofNat, Nat.mod_eq_of_lt hmask,
    Nat.and_two_pow_sub_one_eq_mod]

/-- Packing the fields of a word gives the word with its unused bits cleared: opcode, field B and field C are the
successive remainders of the word (R74 (b)). -/
theorem packWord_extract : packWord op (op.layout.1.extract w) (op.layout.2.extract w) = clearUnused w := by
  refine BitVec.eq_of_toNat_eq ?_
  have hcode : w.toNat % 2 ^ 6 = op.code.toNat := by
    rw [← h, opcodeField, BitVec.extractLsb'_toNat, Nat.shiftRight_zero]
  rw [packWord_toNat_eq_sum (Field.extract_lt _ w) (Field.extract_lt _ w), clearUnused_toNat h, ← op.layout_snd_end,
    Nat.pow_add _ (6 + _), Nat.mod_mul, Nat.pow_add _ 6, Nat.mod_mul, hcode, Field.extract, Field.extract,
    op.layout_fst_offset, op.layout_snd_offset, Nat.shiftRight_eq_div_pow, Nat.shiftRight_eq_div_pow, Nat.pow_add]
  ring

/-- A word of known opcode is canonical exactly when its unused bits are 0. -/
theorem canonical_iff_of_opcode : canonical w = true ↔ clearUnused w = w := by
  simp [canonical, h]

end knownOpcode

/-- Encoding a decoded word gives the word with its unused bits cleared (R74 (b)). -/
theorem encode_of_decode {w : Word} {i : Instr} (h : decode w = .known i) : encode i = .ok (clearUnused w) := by
  obtain ⟨op, hop, rfl⟩ := decode_eq_known h
  rw [encode, Instr.ofFields_opcode, Instr.ofFields_operands,
    pack_of_fits (Field.extract_lt _ w) (Field.extract_lt _ w), packWord_extract hop]

/-- Only the packed word of an instruction is its encoding, and it decodes to that instruction (40_decoder.md R98). -/
theorem decode_of_encode {w : Word} {i : Instr} (h : encode i = .ok w) : decode w = .known i := by
  obtain ⟨⟨hb, hc⟩, rfl⟩ := pack_eq_ok_iff.mp h
  rw [decode_packWord hb hc, Instr.ofFields_eta]

/-- The low six bits of a decoded word are the instruction's opcode. -/
theorem opcodeField_of_decode {w : Word} {i : Instr} (h : decode w = .known i) : opcodeField w = i.opcode.code := by
  obtain ⟨op, hop, rfl⟩ := decode_eq_known h
  rw [hop, Instr.ofFields_opcode]

/-- The decoder does not read the unused bits (40_decoder.md R96). -/
theorem decode_clearUnused (w : Word) : decode (clearUnused w) = decode w := by
  rcases decode_cases w with ⟨op, -, hknown⟩ | ⟨hnone, -⟩
  · rw [hknown]
    exact decode_of_encode (encode_of_decode hknown)
  · rw [clearUnused, hnone]

/-- A word that decodes to an instruction is canonical exactly when it is that instruction's encoding. -/
theorem encode_eq_ok_iff_canonical {w : Word} {i : Instr} (h : decode w = .known i) :
    encode i = .ok w ↔ canonical w = true := by
  rw [encode_of_decode h, Except.ok.injEq, canonical_iff_of_opcode (opcodeField_of_decode h)]

/-- Words of known opcode decode alike exactly when they agree but for the unused bits (R74 (c)). -/
theorem decode_eq_iff_clearUnused_eq {v w : Word} {i : Instr} (hv : decode v = .known i) :
    decode w = .known i ↔ (∃ j, decode w = .known j) ∧ clearUnused w = clearUnused v := by
  refine ⟨fun hw => ⟨⟨i, hw⟩, ?_⟩, fun ⟨_, hclear⟩ => ?_⟩
  · exact Except.ok.inj ((encode_of_decode hw).symm.trans (encode_of_decode hv))
  · rw [← decode_clearUnused, hclear, decode_clearUnused, hv]

/-- A word decodes to a given instruction exactly when it agrees with the packed word below the unused bits. -/
theorem decode_eq_known_iff_mod {w p : Word} {i : Instr} (hp : encode i = .ok p) :
    decode w = .known i ↔ w.toNat % 2 ^ (32 - i.opcode.unusedBits) = p.toNat := by
  have hdecode := decode_of_encode hp
  refine ⟨fun hw => ?_, fun hmod => ?_⟩
  · rw [← clearUnused_toNat (opcodeField_of_decode hw)]
    exact congrArg BitVec.toNat (Except.ok.inj ((encode_of_decode hw).symm.trans hp))
  · have hdvd : 2 ^ 6 ∣ 2 ^ (32 - i.opcode.unusedBits) := by
      rw [← Opcode.layout_snd_end, Nat.add_assoc]
      exact Nat.pow_dvd_pow 2 (Nat.le_add_right ..)
    have hop : opcodeField w = i.opcode.code := by
      refine (BitVec.eq_of_toNat_eq ?_).trans (opcodeField_of_decode hdecode)
      rw [opcodeField, opcodeField, BitVec.extractLsb'_toNat, BitVec.extractLsb'_toNat, ← hmod, Nat.shiftRight_zero,
        Nat.shiftRight_zero, Nat.mod_mod_of_dvd _ hdvd]
    have hclear := BitVec.eq_of_toNat_eq ((clearUnused_toNat hop).trans hmod)
    rw [← decode_clearUnused, hclear, hdecode]

/-- The words that agree with `p` in the bits below `n`. -/
def wordsAgreeingBelow (n : Nat) (p : Word) : List Word :=
  (List.range (2 ^ (32 - n))).map fun u => BitVec.ofNat 32 (p.toNat + u * 2 ^ n)

section wordsAgreeingBelow
variable {n : Nat} {p : Word} (hn : n ≤ 32) (hp : p.toNat < 2 ^ n)

@[simp] theorem length_wordsAgreeingBelow : (wordsAgreeingBelow n p).length = 2 ^ (32 - n) := by
  simp [wordsAgreeingBelow]

include hn hp

/-- The listed words are not truncated. -/
theorem toNat_agreeing_word {u : Nat} (hu : u < 2 ^ (32 - n)) :
    (BitVec.ofNat 32 (p.toNat + u * 2 ^ n)).toNat = p.toNat + u * 2 ^ n := by
  have hlt := add_mul_two_pow_lt hp hu
  rw [Nat.add_sub_of_le hn] at hlt
  rw [BitVec.toNat_ofNat, Nat.mod_eq_of_lt hlt]

theorem nodup_wordsAgreeingBelow : (wordsAgreeingBelow n p).Nodup := by
  refine List.Nodup.map_on (fun u hu v hv huv => ?_) List.nodup_range
  have hnat := congrArg BitVec.toNat huv
  rw [toNat_agreeing_word hn hp (List.mem_range.mp hu), toNat_agreeing_word hn hp (List.mem_range.mp hv)] at hnat
  exact Nat.eq_of_mul_eq_mul_right (Nat.two_pow_pos n) (Nat.add_left_cancel hnat)

theorem mem_wordsAgreeingBelow {w : Word} : w ∈ wordsAgreeingBelow n p ↔ w.toNat % 2 ^ n = p.toNat := by
  simp only [wordsAgreeingBelow, List.mem_map, List.mem_range]
  constructor
  · rintro ⟨u, hu, rfl⟩
    rw [toNat_agreeing_word hn hp hu, Nat.add_mul_mod_self_right, Nat.mod_eq_of_lt hp]
  · intro hmod
    have hquot : w.toNat / 2 ^ n < 2 ^ (32 - n) := by
      rw [Nat.div_lt_iff_lt_mul (Nat.two_pow_pos n), ← Nat.pow_add, Nat.sub_add_cancel hn]
      exact w.isLt
    refine ⟨w.toNat / 2 ^ n, hquot, BitVec.eq_of_toNat_eq ?_⟩
    rw [toNat_agreeing_word hn hp hquot, ← hmod, Nat.mul_comm, Nat.mod_add_div]

end wordsAgreeingBelow

/-- Settles O2: the words of an instruction are those that agree with its packed word below the unused bits. -/
theorem packDecodeClearsUnusedBits : Obligations.PackDecodeClearsUnusedBits := by
  unfold Obligations.PackDecodeClearsUnusedBits
  refine ⟨fun w i h => ⟨encode_of_decode h, encode_eq_ok_iff_canonical h⟩,
    fun _ _ _ hv => decode_eq_iff_clearUnused_eq hv, fun i hi => ?_⟩
  obtain ⟨hb, hc⟩ := i.wellFormed_iff.mp hi
  obtain ⟨p, hp, -, -, hlt⟩ := exists_pack_eq_union hb hc
  have hunused : 32 - (32 - i.opcode.unusedBits) = i.opcode.unusedBits := by cases i <;> rfl
  exact ⟨wordsAgreeingBelow (32 - i.opcode.unusedBits) p, nodup_wordsAgreeingBelow (Nat.sub_le ..) hlt,
    by rw [length_wordsAgreeingBelow, hunused],
    fun w => (decode_eq_known_iff_mod hp).trans (mem_wordsAgreeingBelow (Nat.sub_le ..) hlt).symm⟩

/-- Settles O10: a canonical word decodes to an instruction whose encoding it is, and an encoding has no unused bit set. -/
theorem canonicalWordsAreThePackedWords : Obligations.CanonicalWordsAreThePackedWords := by
  unfold Obligations.CanonicalWordsAreThePackedWords
  refine fun w => ⟨fun hcanonical => ?_, fun ⟨i, hi⟩ => (encode_eq_ok_iff_canonical (decode_of_encode hi)).mp hi⟩
  rcases decode_cases w with ⟨op, -, hknown⟩ | ⟨hnone, -⟩
  · exact ⟨_, (encode_eq_ok_iff_canonical hknown).mpr hcanonical⟩
  · simp [canonical, hnone] at hcanonical

/-- Settles O7: the masks written out are those that clear the unused bits of each opcode. -/
theorem unusedBitsAreNotRead : Obligations.UnusedBitsAreNotRead := by
  unfold Obligations.UnusedBitsAreNotRead
  have hmask {w : Word} (op : Opcode) (hop : opcodeField w = op.code) :
      decode w = decode (w &&& BitVec.ofNat 32 (2 ^ (32 - op.unusedBits) - 1)) := by
    rw [← clearUnused_of_opcode hop, decode_clearUnused]
  refine fun w => ⟨hmask .loadConst, ?_⟩
  rintro (hsqrt | hreadMem | hwriteMem)
  · exact hmask .sqrt hsqrt
  · exact hmask .readMem hreadMem
  · exact hmask .writeMem hwriteMem

/-- Words that agree on a field's slice have the same field. -/
theorem Field.extract_congr (f : Field) {v w : Word}
    (h : ∀ k, f.offset ≤ k → k < f.offset + f.width → v.getLsbD k = w.getLsbD k) : f.extract v = f.extract w := by
  rw [f.extract_eq_slice, f.extract_eq_slice]
  refine congrArg BitVec.toNat (BitVec.eq_of_getLsbD_eq fun j hj => ?_)
  simp [hj, h (f.offset + j) (Nat.le_add_right ..) (Nat.add_lt_add_left hj _)]

/-- Settles O8: a field is its slice, and READ_MEM and SQRT have one layout, all of it above bit 5. -/
theorem fieldsAreIndependent : Obligations.FieldsAreIndependent := by
  unfold Obligations.FieldsAreIndependent
  refine ⟨fun f _ _ h => f.extract_congr h, fun v w hagree hv hw => ?_⟩
  have hreg : Opcode.readMem.layout.1.extract v = Opcode.sqrt.layout.1.extract w :=
    Field.extract_congr _ fun k hk _ => hagree k hk
  have haddr : Opcode.readMem.layout.2.extract v = Opcode.sqrt.layout.2.extract w :=
    Field.extract_congr _ fun k hk _ => hagree k (Nat.le_trans (by decide) hk)
  refine ⟨_, _, decode_of_opcode (op := .readMem) hv, ?_⟩
  rw [hreg, haddr]
  exact decode_of_opcode (op := .sqrt) hw

/-- Settles O9: for each opcode the flattened outputs are the slices decode reads; for an unknown one no selector is set. -/
theorem flatDecoderAgreesWithDecode : Obligations.FlatDecoderAgreesWithDecode := by
  unfold Obligations.FlatDecoderAgreesWithDecode
  intro w
  rcases decode_cases w with ⟨op, hop, -⟩ | ⟨hnone, hunknown⟩
  · have hslices := decode_of_opcode_slices hop
    rw [opcodeField] at hop
    cases op <;> simp [hslices, flatDecode, hop, Opcode.code, Instr.ofFields, Opcode.layout]
  · have hop (op : Opcode) : w.extractLsb' 0 6 ≠ op.code := fun hcode => by
      simp [opcodeField, hcode] at hnone
    have hloadConst : w.extractLsb' 0 6 ≠ 29#6 := hop .loadConst
    have hreadMem : w.extractLsb' 0 6 ≠ 4#6 := hop .readMem
    have hwriteMem : w.extractLsb' 0 6 ≠ 43#6 := hop .writeMem
    have hsqrt : w.extractLsb' 0 6 ≠ 2#6 := hop .sqrt
    simp [hunknown, flatDecode, hloadConst, hreadMem, hwriteMem, hsqrt]

/-- Settles O11: the ten words of the table, decoded. -/
theorem sampleWordsDecode : Obligations.SampleWordsDecode := by
  unfold Obligations.SampleWordsDecode
  decide

end Sys2Proof
end

/-! ### Serialised words in a buffer (30_encoding.md R75, 20_memory.md R41) -/

section
namespace Sys2Proof

@[simp] theorem length_wordBytes (w : Word) : (wordBytes w).length = 4 := rfl

/-- A word's bytes at the head of a buffer fetch back to the word. -/
theorem fetch32_wordBytes_append (w : Word) (after : List Byte) : fetch32 (wordBytes w ++ after) 0 = some w :=
  fetch32_wordBytes w

/-- The fetch behind a front part of the buffer is the fetch from the rest. -/
theorem fetch32_append_right (before after : List Byte) (p : Nat) :
    fetch32 (before ++ after) (before.length + p) = fetch32 after p := by
  rw [fetch32, fetch32, List.drop_length_add_append]

/-- A word's bytes anywhere in a buffer fetch back to the word. -/
theorem fetch32_append_wordBytes (before after : List Byte) (w : Word) :
    fetch32 (before ++ wordBytes w ++ after) before.length = some w := by
  rw [List.append_assoc]
  exact (fetch32_append_right before _ 0).trans (fetch32_wordBytes_append w after)

/-- The bytes of a word as numbers, least significant first. -/
theorem map_toNat_wordBytes (w : Word) : (wordBytes w).map BitVec.toNat =
    [w.toNat % 2 ^ 8, w.toNat / 2 ^ 8 % 2 ^ 8, w.toNat / 2 ^ 16 % 2 ^ 8, w.toNat / 2 ^ 24] := by
  have htop : w.toNat / 2 ^ 24 < 2 ^ 8 := Nat.div_lt_of_lt_mul w.isLt
  simp only [wordBytes, List.map_cons, List.map_nil, BitVec.extractLsb'_toNat, Nat.shiftRight_eq_div_pow,
    Nat.mod_eq_of_lt htop, Nat.pow_zero, Nat.div_one]

/-- Settles O13: each byte is a slice of the word, and the bytes of a word put into a buffer are its fetch there. -/
theorem serialisedWordsFetchBack : Obligations.SerialisedWordsFetchBack := by
  unfold Obligations.SerialisedWordsFetchBack
  exact ⟨map_toNat_wordBytes, fetch32_append_wordBytes, rfl, by decide⟩

/-- A table word decodes through its bytes as it decodes itself. -/
theorem decodeTableWord_eq_some_iff (nbits w : Nat) (i : Instr) :
    decodeTableWord nbits w = some i ↔ decode (tableWord nbits w) = .known i := by
  simp only [decodeTableWord, fetch32_wordBytes]
  cases decode (tableWord nbits w) <;> simp

end Sys2Proof

namespace Sys2Proof.Machine

/-- What stands before the placed word fills the buffer up to its offset. -/
theorem length_placeWord_front (prog : List Byte) (p : Nat) :
    (prog.take p ++ List.replicate (p - prog.length) (0 : Byte)).length = p := by
  simp
  omega

/-- The word placed is the word fetched there. -/
theorem fetch32_placeWord (prog : List Byte) (p : Nat) (w : Word) : fetch32 (placeWord prog p w) p = some w := by
  have hfetch := fetch32_append_wordBytes (prog.take p ++ List.replicate (p - prog.length) 0) (prog.drop (p + 4)) w
  rwa [length_placeWord_front] at hfetch

/-- Placing a word leaves the bytes before and behind it alone. -/
theorem getElem?_placeWord_other {prog : List Byte} {p k : Nat} (w : Word) (hk : k < prog.length)
    (hother : k < p ∨ p + 4 ≤ k) : (placeWord prog p w)[k]? = prog[k]? := by
  rcases hother with hbefore | hbehind
  · simp [placeWord, List.getElem?_append, hbefore, hk]
  · have hfront : (prog.take p ++ List.replicate (p - prog.length) 0 ++ wordBytes w).length = p + 4 := by
      rw [List.length_append, length_placeWord_front, length_wordBytes]
    rw [placeWord, List.getElem?_append_right (hfront ▸ hbehind), hfront, List.getElem?_drop, Nat.add_sub_of_le hbehind]

/-- Settles O54: the buffer is cut at `pc`, and the word's bytes are put between the parts. -/
theorem placedWordIsTheWordFetchedNext : Obligations.PlacedWordIsTheWordFetchedNext := by
  unfold Obligations.PlacedWordIsTheWordFetchedNext
  exact ⟨fun s nbits w => ⟨fetch32_placeWord s.prog s.pc _, fun _ hk hother => getElem?_placeWord_other _ hk hother⟩,
    decodeTableWord_eq_some_iff⟩

end Sys2Proof.Machine
end

/-! ### The assembler (30_encoding.md R77 to R85) -/

section
namespace Sys2Proof.Machine

/-- The word of an IR record is its encoding. -/
theorem assembleInstr_eq_ok_iff {position : Nat} {i : Instr} {w : Word} :
    assembleInstr position i = .ok w ↔ encode i = .ok w := by
  unfold assembleInstr
  cases encode i <;> simp

/-- Assembly of a list gives bytes exactly when its first entry has an IR record with an encoding and the rest gives
bytes; the first entry's word stands first (R85). -/
theorem assembleEntries_cons_eq_ok_iff {position : Nat} {e : Entry} {rest : List Entry} {bytes : List Byte} :
    assembleEntries position (e :: rest) = .ok bytes ↔
      ∃ i w tail, entryInstr position e = .ok i ∧ encode i = .ok w ∧
        assembleEntries (position + 1) rest = .ok tail ∧ bytes = wordBytes w ++ tail := by
  simp only [assembleEntries, ← assembleInstr_eq_ok_iff (position := position)]
  cases entryInstr position e with
  | error err => simp [Bind.bind, Except.bind]
  | ok i =>
    cases hw : assembleInstr position i with
    | error err => simp [Bind.bind, Except.bind, hw]
    | ok w => cases assembleEntries (position + 1) rest <;> simp [Bind.bind, Except.bind, Pure.pure, Except.pure, hw, eq_comm]

/-- Each entry of an assembled list, from a position on, is the word at its own offset. -/
theorem assembleEntries_layout {entries : List Entry} : ∀ {position : Nat} {bytes : List Byte},
    assembleEntries position entries = .ok bytes →
      bytes.length = 4 * entries.length ∧ ∀ k e, entries[k]? = some e →
        ∃ i w, entryInstr (position + k) e = .ok i ∧ encode i = .ok w ∧ fetch32 bytes (4 * k) = some w := by
  induction entries with
  | nil =>
    intro position bytes h
    cases h
    simp
  | cons e rest ih =>
    intro position bytes h
    obtain ⟨i, w, tail, hi, hw, htail, rfl⟩ := assembleEntries_cons_eq_ok_iff.mp h
    obtain ⟨hlen, hwords⟩ := ih htail
    refine ⟨by simp [hlen]; omega, fun k e' hk => ?_⟩
    cases k with
    | zero =>
      obtain rfl : e = e' := by simpa using hk
      exact ⟨i, w, hi, hw, fetch32_wordBytes_append w tail⟩
    | succ k =>
      obtain ⟨i', w', hi', hw', hfetch⟩ := hwords k e' (by simpa using hk)
      refine ⟨i', w', by rwa [Nat.add_right_comm] at hi', hw', ?_⟩
      rw [← hfetch, ← fetch32_append_right (wordBytes w) tail, length_wordBytes, Nat.mul_succ, Nat.add_comm]

/-- Settles O55: each entry's word stands at its offset, and an encoding is canonical and decodes to what was encoded. -/
theorem assembledProgramsDecodeToTheirEntries : Obligations.AssembledProgramsDecodeToTheirEntries := by
  unfold Obligations.AssembledProgramsDecodeToTheirEntries
  intro entries bytes h
  obtain ⟨hlen, hwords⟩ := assembleEntries_layout h
  refine ⟨hlen, fun k e hk => ?_⟩
  obtain ⟨i, w, hi, hw, hfetch⟩ := hwords k e hk
  have hdecode := decode_of_encode hw
  exact ⟨i, w, by rwa [Nat.zero_add] at hi, hw, hfetch, hdecode, (encode_eq_ok_iff_canonical hdecode).mp hw⟩

/-- An instruction has an encoding exactly when it is well formed (R73). -/
theorem exists_encode_iff_wellFormed (i : Instr) : (∃ w, encode i = .ok w) ↔ i.wellFormed = true :=
  (exists_encode_iff i).trans i.wellFormed_iff.symm

/-- A list whose entries, from a position on, all have well-formed IR records is assembled. -/
theorem exists_assembleEntries_of_wellFormed {entries : List Entry} : ∀ {position : Nat},
    (∀ k e, entries[k]? = some e → ∃ i, entryInstr (position + k) e = .ok i ∧ i.wellFormed = true) →
      ∃ bytes, assembleEntries position entries = .ok bytes := by
  induction entries with
  | nil => exact fun _ => ⟨[], rfl⟩
  | cons e rest ih =>
    intro position h
    obtain ⟨i, hi, hwf⟩ := h 0 e rfl
    obtain ⟨w, hw⟩ := (exists_encode_iff_wellFormed i).mpr hwf
    obtain ⟨tail, htail⟩ := ih (position := position + 1) fun k e' hk => by
      rw [Nat.add_right_comm]
      exact h (k + 1) e' (by simpa using hk)
    exact ⟨_, assembleEntries_cons_eq_ok_iff.mpr ⟨i, w, tail, hi, hw, htail, rfl⟩⟩

/-- Settles O56: the entries are assembled one by one, and each word exists exactly when its IR record is well formed. -/
theorem assemblyIsAllOrNothing : Obligations.AssemblyIsAllOrNothing := by
  unfold Obligations.AssemblyIsAllOrNothing
  refine ⟨fun entries => ⟨fun ⟨bytes, h⟩ k e hk => ?_, fun h => ?_⟩, rfl⟩
  · obtain ⟨i, w, hi, hw, -⟩ := (assembleEntries_layout h).2 k e hk
    exact ⟨i, by rwa [Nat.zero_add] at hi, (exists_encode_iff_wellFormed i).mp ⟨w, hw⟩⟩
  · refine exists_assembleEntries_of_wellFormed (position := 0) fun k e hk => ?_
    rw [Nat.zero_add]
    exact h k e hk

/-- Settles O57: only WRITE_MEM's meaning asks for `offset`, and there `Entry.writeAddress` takes it first. -/
theorem offsetTakesPrecedenceOverAddr : Obligations.OffsetTakesPrecedenceOverAddr := by
  unfold Obligations.OffsetTakesPrecedenceOverAddr
  refine ⟨fun _ _ _ _ => rfl, fun _ _ _ => rfl, fun _ _ => ⟨.addr, rfl⟩, fun p e off hcmd => ?_⟩
  unfold entryInstr
  cases hop : commandOpcode e.cmd with
  | none => rfl
  | some op =>
    cases op with
    | loadConst => rfl
    | readMem => rfl
    | sqrt => rfl
    | writeMem => exact absurd (commandName_of_commandOpcode hop).symm hcmd

/-- A text names an opcode exactly when it is that opcode's command name (R77). -/
theorem commandOpcode_eq_some_iff {name : String} {op : Opcode} : commandOpcode name = some op ↔ commandName op = name :=
  ⟨commandName_of_commandOpcode, fun h => h ▸ commandOpcode_commandName op⟩

/-- An entry whose command text names no opcode fails with its position (R82). -/
theorem entryInstr_of_unknown_command (p : Nat) {e : Entry} (h : ∀ op, commandName op ≠ e.cmd) :
    entryInstr p e = .error (.unknownCommand p e.cmd) := by
  have hnone : commandOpcode e.cmd = none := by
    rw [Option.eq_none_iff_forall_ne_some]
    exact fun op hop => h op (commandName_of_commandOpcode hop)
  rw [entryInstr, hnone]

/-- Settles O58: the command texts are the values of `commandName`, and each opcode's IR record is its row of R79. -/
theorem commandNamesAreTheFourOpcodeNames : Obligations.CommandNamesAreTheFourOpcodeNames := by
  unfold Obligations.CommandNamesAreTheFourOpcodeNames
  refine ⟨fun name op => ?_, fun _ _ _ => rfl, fun _ _ _ => ⟨rfl, rfl, rfl⟩,
    fun p e hcmd => entryInstr_of_unknown_command p fun op hop => hcmd ?_⟩
  · rw [commandOpcode_eq_some_iff]
    cases op <;> simp [commandName, eq_comm]
  · rw [← hop]
    cases op <;> decide

end Sys2Proof.Machine
end

/-! ### The integer square root (44_sqrt.md R146) -/

section
namespace Sys2Proof.Machine

/-- The search keeps the root between `r` and `r + 2 ^ k` and halves that range with every bit. -/
theorem isqrtFrom_eq_sqrt {n : Nat} (k : Nat) {r : Nat} (hlow : r * r ≤ n) (hhigh : n < (r + 2 ^ k) * (r + 2 ^ k)) :
    isqrtFrom n k r = n.sqrt := by
  induction k generalizing r with
  | zero => exact Nat.eq_sqrt.mpr ⟨hlow, hhigh⟩
  | succ k ih =>
    unfold isqrtFrom
    split_ifs with hbit
    · refine ih hbit ?_
      rwa [Nat.add_assoc, ← Nat.two_mul, ← Nat.pow_succ']
    · exact ih hlow (Nat.lt_of_not_le hbit)

/-- The search finds the library's integer square root: the first range, up to `2 ^ (log2 n / 2 + 1)`, holds it. -/
theorem isqrt_eq_sqrt (n : Nat) : isqrt n = n.sqrt := by
  refine isqrtFrom_eq_sqrt _ (Nat.zero_le n) ?_
  calc n < 2 ^ (n.log2 + 1) := Nat.lt_log2_self
    _ ≤ 2 ^ ((n.log2 / 2 + 1) + (n.log2 / 2 + 1)) := Nat.pow_le_pow_right (by decide) (by omega)
    _ = (0 + 2 ^ (n.log2 / 2 + 1)) * (0 + 2 ^ (n.log2 / 2 + 1)) := by rw [Nat.zero_add, Nat.pow_add]

/-- The defining property of the root (R146). -/
theorem isqrt_bounds (n : Nat) : isqrt n * isqrt n ≤ n ∧ n < (isqrt n + 1) * (isqrt n + 1) := by
  rw [isqrt_eq_sqrt]
  exact ⟨n.sqrt_le, n.lt_succ_sqrt⟩

theorem isqrt_le_self (n : Nat) : isqrt n ≤ n := isqrt_eq_sqrt n ▸ n.sqrt_le_self

/-- The root of an operand of SQRT is at most 46340, since 46341 has a square above `2 ^ 31`. -/
theorem isqrt_le_of_lt {n : Nat} (h : n < 2 ^ 31) : isqrt n ≤ 46340 := by
  rw [isqrt_eq_sqrt]
  exact Nat.le_of_lt_succ (Nat.sqrt_lt.mpr (h.trans (by decide)))

/-- Settles O49: the search computes the library's `Nat.sqrt`. -/
theorem isqrtIsTheExactFloorRoot : Obligations.IsqrtIsTheExactFloorRoot := by
  unfold Obligations.IsqrtIsTheExactFloorRoot
  refine ⟨isqrt_bounds, ?_⟩
  simp only [isqrt_eq_sqrt]
  refine ⟨fun n r hlow hhigh => Nat.eq_sqrt.mpr ⟨hlow, hhigh⟩,
    fun m n => Nat.sqrt_le_sqrt, Nat.sqrt_le_self, fun n => ⟨fun hfix => ?_, ?_⟩⟩
  · by_contra hbig
    exact (Nat.sqrt_lt_self (n := n) (by omega)).ne hfix
  · rintro (rfl | rfl)
    · exact Nat.sqrt_zero
    · exact Nat.sqrt_one

end Sys2Proof.Machine
end

/-! ### What each instruction answers (42_load_const.md, 43_memory_transfer.md, 44_sqrt.md) -/

section
namespace Sys2Proof.Machine

/-- A word keeps a number of at most 32 bits (30_encoding.md R70). -/
theorem toNat_zext32 {v : Nat} (h : v < 2 ^ 32) : (zext32 v).toNat = v :=
  (BitVec.toNat_ofNat ..).trans (Nat.mod_eq_of_lt h)

theorem toNat_zext32_le (v : Nat) : (zext32 v).toNat ≤ v := Nat.mod_le ..

section rules
variable {s : State} {value reg srcReg addr : Nat}

theorem exec_loadConst_missing_reg (hreg : s.regCount ≤ reg) :
    exec (.loadConst value reg) s = .next (s.raise .indexOutOfRange .reg reg 0) := if_pos hreg

theorem exec_loadConst (hreg : reg < s.regCount) :
    exec (.loadConst value reg) s = .next (s.writeReg reg (zext32 value)).complete := if_neg (Nat.not_le.mpr hreg)

theorem exec_readMem_missing_word (haddr : s.memSize ≤ addr) :
    exec (.readMem reg addr) s = .next (s.raise .indexOutOfRange .mem addr 0) := if_pos haddr

theorem exec_writeMem_missing_reg (hreg : s.regCount ≤ srcReg) :
    exec (.writeMem addr srcReg) s = .next (s.raise .indexOutOfRange .reg srcReg 0) := if_pos hreg

theorem exec_sqrt_missing_word (haddr : s.memSize ≤ addr) :
    exec (.sqrt reg addr) s = .next (s.raise .indexOutOfRange .mem addr 0) := if_pos haddr

section word
variable (haddr : addr < s.memSize)
include haddr

theorem exec_readMem_missing_reg (hreg : s.regCount ≤ reg) :
    exec (.readMem reg addr) s = .next (s.raise .indexOutOfRange .reg reg 0) :=
  (if_neg (Nat.not_le.mpr haddr)).trans (if_pos hreg)

theorem exec_readMem (hreg : reg < s.regCount) :
    exec (.readMem reg addr) s = .next (s.writeReg reg (s.readMem addr)).complete :=
  (if_neg (Nat.not_le.mpr haddr)).trans (if_neg (Nat.not_le.mpr hreg))

theorem exec_writeMem (hreg : srcReg < s.regCount) :
    exec (.writeMem addr srcReg) s = .next (s.writeMem addr (s.readReg srcReg)).complete :=
  (if_neg (Nat.not_le.mpr hreg)).trans (if_neg (Nat.not_le.mpr haddr))

theorem exec_sqrt_negative (hneg : 2 ^ 31 ≤ (s.readMem addr).toNat) :
    exec (.sqrt reg addr) s = .next (s.raise .domainError .mem addr (s.readMem addr)) :=
  (if_neg (Nat.not_le.mpr haddr)).trans (if_pos ((isNegative_iff _).mpr hneg))

section operand
variable (hop : (s.readMem addr).toNat < 2 ^ 31)
include hop

/-- A non-negative operand passes SQRT's sign test. -/
theorem exec_sqrt_of_nonneg : exec (.sqrt reg addr) s =
    requireReg s reg (.next (s.writeReg reg (zext32 (isqrt (s.readMem addr).toNat))).complete) :=
  (if_neg (Nat.not_le.mpr haddr)).trans (if_neg fun hneg => absurd hop (Nat.not_lt.mpr ((isNegative_iff _).mp hneg)))

theorem exec_sqrt_missing_reg (hreg : s.regCount ≤ reg) :
    exec (.sqrt reg addr) s = .next (s.raise .indexOutOfRange .reg reg 0) :=
  (exec_sqrt_of_nonneg haddr hop).trans (if_pos hreg)

theorem exec_sqrt (hreg : reg < s.regCount) :
    exec (.sqrt reg addr) s = .next (s.writeReg reg (zext32 (isqrt (s.readMem addr).toNat))).complete :=
  (exec_sqrt_of_nonneg haddr hop).trans (if_neg (Nat.not_le.mpr hreg))

end operand
end word

theorem exec_writeMem_missing_word (hreg : srcReg < s.regCount) (haddr : s.memSize ≤ addr) :
    exec (.writeMem addr srcReg) s = .next (s.raise .indexOutOfRange .mem addr 0) :=
  (if_neg (Nat.not_le.mpr hreg)).trans (if_pos haddr)

end rules

/-- An instruction that writes a register and completes has no other effect. -/
theorem writeReg_complete_frame (s : State) (r : Nat) (v : Word) :
    OnlyRegChanged r s (s.writeReg r v).complete ∧ SameMem s (s.writeReg r v).complete ∧
      Completed s (s.writeReg r v).complete :=
  ⟨fun _ hi => s.readReg_writeReg_other v hi, fun _ => rfl, rfl, rfl, rfl, rfl, rfl, s.writeReg_regCount r v, rfl, rfl⟩

/-- An instruction that writes a memory word and completes has no other effect. -/
theorem writeMem_complete_frame (s : State) (a : Nat) (v : Word) :
    OnlyWordChanged a s (s.writeMem a v).complete ∧ SameRegs s (s.writeMem a v).complete ∧
      Completed s (s.writeMem a v).complete :=
  ⟨fun _ hb => s.mem.read_write_other v hb, fun _ => rfl, rfl, rfl, rfl, rfl, rfl, rfl, rfl, rfl⟩

/-- The index in the record is the index raised, when it fits the field (R171). -/
theorem State.toNat_faultIndex (s : State) (sp : FaultSpace) {n : Nat} (v : Word) (h : n < 2 ^ 19) :
    (s.faultRecord sp n v).faultIndex.toNat = n := (BitVec.toNat_ofNat ..).trans (Nat.mod_eq_of_lt h)

/-- Raising a fault leaves its record and nothing else; an index that fits its field is not truncated (R171). -/
theorem takesFault_raise (s : State) (c : FaultCause) (sp : FaultSpace) {n : Nat} (v : Word) (hn : n < 2 ^ 19) :
    TakesFault s (.next (s.raise c sp n v)) c sp n v :=
  ⟨s.faultRecord sp n v, rfl, rfl, rfl, rfl, rfl, s.toNat_faultIndex sp v hn, rfl⟩

/-- A register operand fits the record's index field. -/
theorem lt_two_pow_19_of_reg {r : Nat} (h : r < 2 ^ 5) : r < 2 ^ 19 := h.trans (by decide)

/-- Settles O40: LOAD_CONST writes its zero-extended constant to an existing register. -/
theorem loadConstLoadsTheConstant : Obligations.LoadConstLoadsTheConstant := by
  unfold Obligations.LoadConstLoadsTheConstant
  refine fun s value reg hvalue hreg => ⟨_, exec_loadConst hreg, ?_, writeReg_complete_frame s reg _⟩
  rw [State.complete_readReg, s.readReg_writeReg_same _ hreg, toNat_zext32 (hvalue.trans (by decide))]

/-- Settles O41: the register check of LOAD_CONST. -/
theorem loadConstFaultsOnMissingRegister : Obligations.LoadConstFaultsOnMissingRegister := by
  unfold Obligations.LoadConstFaultsOnMissingRegister
  intro s value reg hfits hreg
  rw [exec_loadConst_missing_reg hreg]
  exact takesFault_raise s _ _ _ (lt_two_pow_19_of_reg hfits)

/-- Settles O42: READ_MEM writes the memory word to an existing register. -/
theorem readMemCopiesTheWord : Obligations.ReadMemCopiesTheWord := by
  unfold Obligations.ReadMemCopiesTheWord
  exact fun s reg addr haddr hreg =>
    ⟨_, exec_readMem haddr hreg, s.readReg_writeReg_same _ hreg, writeReg_complete_frame s reg _⟩

/-- Settles O43: the two checks of READ_MEM, the address first. -/
theorem readMemFaultsInOrder : Obligations.ReadMemFaultsInOrder := by
  unfold Obligations.ReadMemFaultsInOrder
  refine fun s reg addr hregFits haddrFits => ⟨fun haddr => ?_, fun haddr hreg => ?_⟩
  · rw [exec_readMem_missing_word haddr]
    exact takesFault_raise s _ _ _ haddrFits
  · rw [exec_readMem_missing_reg haddr hreg]
    exact takesFault_raise s _ _ _ (lt_two_pow_19_of_reg hregFits)

/-- Settles O44: WRITE_MEM writes its register to an existing word. -/
theorem writeMemStoresTheRegister : Obligations.WriteMemStoresTheRegister := by
  unfold Obligations.WriteMemStoresTheRegister
  intro s addr srcReg hreg haddr
  obtain ⟨hword, hregs, hcompleted⟩ := writeMem_complete_frame s addr (s.readReg srcReg)
  exact ⟨_, exec_writeMem haddr hreg, s.mem.read_write_same addr _, hword, hregs, hcompleted, rfl⟩

/-- Settles O45: the two checks of WRITE_MEM, the source register first. -/
theorem writeMemFaultsInOrder : Obligations.WriteMemFaultsInOrder := by
  unfold Obligations.WriteMemFaultsInOrder
  refine fun s addr srcReg hregFits haddrFits => ⟨fun hreg => ?_, fun hreg haddr => ?_⟩
  · rw [exec_writeMem_missing_reg hreg]
    exact takesFault_raise s _ _ _ (lt_two_pow_19_of_reg hregFits)
  · rw [exec_writeMem_missing_word hreg haddr]
    exact takesFault_raise s _ _ _ haddrFits

/-- Settles O46: SQRT writes `isqrt` of its operand, which fits a word, to an existing register. -/
theorem sqrtWritesTheExactRoot : Obligations.SqrtWritesTheExactRoot := by
  unfold Obligations.SqrtWritesTheExactRoot
  intro s reg addr haddr hop hreg
  have hle := isqrt_le_of_lt hop
  have hroot : ((s.writeReg reg (zext32 (isqrt (s.readMem addr).toNat))).complete.readReg reg).toNat =
      isqrt (s.readMem addr).toNat := by
    rw [State.complete_readReg, s.readReg_writeReg_same _ hreg, toNat_zext32 (hle.trans_lt (by decide))]
  obtain ⟨hlow, hhigh⟩ := isqrt_bounds (s.readMem addr).toNat
  refine ⟨_, exec_sqrt haddr hop hreg, ?_⟩
  rw [hroot]
  exact ⟨hlow, hhigh, hle, writeReg_complete_frame s reg _⟩

/-- A word is negative in two's complement exactly when its bit 31 is set (44_sqrt.md R147). -/
theorem toInt_neg_iff (v : Word) : v.toInt < 0 ↔ 2 ^ 31 ≤ v.toNat := by
  rw [BitVec.toInt_neg_iff]
  omega

/-- Settles O47: the three checks of SQRT, in their order. -/
theorem sqrtFaultsInOrder : Obligations.SqrtFaultsInOrder := by
  unfold Obligations.SqrtFaultsInOrder
  refine fun s reg addr hregFits haddrFits => ⟨fun haddr => ?_, fun haddr hneg => ?_, fun haddr hnonneg hreg => ?_⟩
  · rw [exec_sqrt_missing_word haddr]
    exact takesFault_raise s _ _ _ haddrFits
  · rw [exec_sqrt_negative haddr ((toInt_neg_iff _).mp hneg)]
    exact takesFault_raise s _ _ _ haddrFits
  · have hop : (s.readMem addr).toNat < 2 ^ 31 := by
      rw [← Nat.not_le, ← toInt_neg_iff]
      exact Int.not_lt.mpr hnonneg
    rw [exec_sqrt_missing_reg haddr hop hreg]
    exact takesFault_raise s _ _ _ (lt_two_pow_19_of_reg hregFits)

/-- An instruction whose memory word does not exist takes an index fault. -/
theorem exec_missing_word {s : State} {i : Instr} {a : Nat} (ha : i.addrOperand = some a) (hmiss : s.memSize ≤ a) :
    ∃ sp n, exec i s = .next (s.raise .indexOutOfRange sp n 0) := by
  cases i with
  | loadConst value reg => cases ha
  | readMem reg addr =>
    cases ha
    exact ⟨_, _, exec_readMem_missing_word hmiss⟩
  | writeMem addr srcReg =>
    cases ha
    by_cases hreg : srcReg < s.regCount
    · exact ⟨_, _, exec_writeMem_missing_word hreg hmiss⟩
    · exact ⟨_, _, exec_writeMem_missing_reg (Nat.le_of_not_lt hreg)⟩
  | sqrt reg addr =>
    cases ha
    exact ⟨_, _, exec_sqrt_missing_word hmiss⟩

/-- Settles O48: whichever index is reported, a raised fault writes the status only. -/
theorem addressBeyondMemorySizeFaults : Obligations.AddressBeyondMemorySizeFaults := by
  unfold Obligations.AddressBeyondMemorySizeFaults
  refine ⟨fun s i a ha hmiss => ?_, fun _ => rfl⟩
  obtain ⟨sp, n, hexec⟩ := exec_missing_word ha hmiss
  exact ⟨_, _, hexec, rfl, rfl, rfl, rfl, rfl, rfl, rfl⟩

/-- Settles O50: READ_MEM reads back the word WRITE_MEM has written. -/
theorem storeThenLoadCopiesTheRegister : Obligations.StoreThenLoadCopiesTheRegister := by
  unfold Obligations.StoreThenLoadCopiesTheRegister
  intro s a i j hi hj ha
  have hstored : (s.writeMem a (s.readReg i)).complete.readMem a = s.readReg i := s.mem.read_write_same a _
  exact ⟨_, _, exec_writeMem ha hi, exec_readMem (s := (s.writeMem a (s.readReg i)).complete) ha hj,
    (State.readReg_writeReg_same _ _ hj).trans hstored, hstored, rfl⟩

end Sys2Proof.Machine
end

/-! ### The cases of a step (41_control_fsm.md R112 to R118) -/

section
namespace Sys2Proof.Machine

section stepRules
variable {s : State} {w : Word} (hrun : s.status = .running) (hfetch : fetch32 s.prog s.pc = some w)
include hrun hfetch

/-- The step of a fetched word of unknown opcode takes the fault (R113). -/
theorem step_eq_raiseUnknown {op : BitVec 6} (hdecode : decode w = .unknown op) :
    step s = .next (s.fetched w).raiseUnknown := by
  simp [step_running hrun, stepRunning, hfetch, hdecode]

/-- The step of a fetched instruction executes it on the latched state (R114). -/
theorem step_eq_exec {i : Instr} (hdecode : decode w = .known i) : step s = exec i ((s.fetched w).decoded i) := by
  simp [step_running hrun, stepRunning, hfetch, hdecode]

end stepRules

/-- Settles O16: FETCH and DECODE leave the two latches and the phase EXECUTE behind. -/
theorem stepRunsDecodedInstruction : Obligations.StepRunsDecodedInstruction := by
  unfold Obligations.StepRunsDecodedInstruction
  exact fun _ _ _ hrun hfetch hdecode => step_eq_exec hrun hfetch hdecode

/-- Where an instruction that writes register `reg` takes the value from, in the state it was fetched in. -/
inductive RegSource (s : State) (reg : Nat) : Instr → Word → Prop
  | loadConst (value : Nat) : RegSource s reg (.loadConst value reg) (zext32 value)
  | readMem {addr : Nat} (haddr : addr < s.memSize) : RegSource s reg (.readMem reg addr) (s.readMem addr)
  | sqrt {addr : Nat} (haddr : addr < s.memSize) (hop : (s.readMem addr).toNat < 2 ^ 31) :
      RegSource s reg (.sqrt reg addr) (zext32 (isqrt (s.readMem addr).toNat))

/-- What a step from `s` leads to, one case per way it can go, each with the word fetched and the checks passed or failed
(`step_cases` and `exec_cases` in one, about the state before the latches were written). -/
inductive StepEffect (s : State) : State → Prop
  | halt (hfetch : fetch32 s.prog s.pc = none) : StepEffect s s.halt
  | unknownOpcode {w : Word} {op : BitVec 6} (hfetch : fetch32 s.prog s.pc = some w)
      (hdecode : decode w = .unknown op) : StepEffect s ((s.fetched w).raise .unknownOpcode .none 0 0)
  | missingIndex {w : Word} {i : Instr} {sp : FaultSpace} {n : Nat} (hfetch : fetch32 s.prog s.pc = some w)
      (hdecode : decode w = .known i)
      (hmissing : sp = .reg ∧ n = i.regOperand ∧ s.regCount ≤ n ∨ sp = .mem ∧ i.addrOperand = some n ∧ s.memSize ≤ n) :
      StepEffect s (((s.fetched w).decoded i).raise .indexOutOfRange sp n 0)
  | negativeOperand {w : Word} {reg addr : Nat} (hfetch : fetch32 s.prog s.pc = some w)
      (hdecode : decode w = .known (.sqrt reg addr)) (haddr : addr < s.memSize)
      (hneg : 2 ^ 31 ≤ (s.readMem addr).toNat) :
      StepEffect s (((s.fetched w).decoded (.sqrt reg addr)).raise .domainError .mem addr (s.readMem addr))
  | writeReg {w : Word} {i : Instr} {reg : Nat} {v : Word} (hfetch : fetch32 s.prog s.pc = some w)
      (hdecode : decode w = .known i) (hreg : reg < s.regCount) (hsource : RegSource s reg i v) :
      StepEffect s (((s.fetched w).decoded i).writeReg reg v).complete
  | writeMem {w : Word} {addr srcReg : Nat} (hfetch : fetch32 s.prog s.pc = some w)
      (hdecode : decode w = .known (.writeMem addr srcReg)) (hreg : srcReg < s.regCount) (haddr : addr < s.memSize) :
      StepEffect s (((s.fetched w).decoded (.writeMem addr srcReg)).writeMem addr (s.readReg srcReg)).complete

/-- Executing the fetched instruction has one of the effects of a known opcode. -/
theorem stepEffect_of_exec {s t : State} {w : Word} {i : Instr} (hfetch : fetch32 s.prog s.pc = some w)
    (hdecode : decode w = .known i) (hexec : exec i ((s.fetched w).decoded i) = .next t) : StepEffect s t := by
  rcases exec_cases i ((s.fetched w).decoded i) with
      ⟨sp, n, e, hmissing⟩ | ⟨reg, addr, rfl, haddr, hneg, e⟩ | ⟨reg, v, hreg, e, hsource⟩ |
      ⟨addr, srcReg, rfl, hreg, haddr, e⟩ <;>
    obtain rfl : _ = t := Host.Outcome.next.inj (e.symm.trans hexec)
  · exact .missingIndex hfetch hdecode hmissing
  · exact .negativeOperand hfetch hdecode haddr hneg
  · refine .writeReg hfetch hdecode hreg ?_
    rcases hsource with ⟨value, rfl, rfl⟩ | ⟨addr, rfl, haddr, rfl⟩ | ⟨addr, rfl, haddr, hop, rfl⟩
    · exact .loadConst value
    · exact .readMem haddr
    · exact .sqrt haddr hop
  · exact .writeMem hfetch hdecode hreg haddr

/-- A step is taken while RUNNING and has one of the effects. -/
theorem step_effect {s t : State} (h : step s = .next t) : s.status = .running ∧ StepEffect s t := by
  obtain ⟨hrun, ⟨hfetch, rfl⟩ | ⟨w, op, hfetch, hdecode, rfl⟩ | ⟨w, i, hfetch, hdecode, hexec⟩⟩ := step_cases h
  · exact ⟨hrun, .halt hfetch⟩
  · exact ⟨hrun, .unknownOpcode hfetch hdecode⟩
  · exact ⟨hrun, stepEffect_of_exec hfetch hdecode hexec⟩

end Sys2Proof.Machine
end

/-! ### What every step keeps (10_state.md R27 to R29, 20_memory.md R51) -/

section
namespace Sys2Proof.Machine

/-- A step that leaves the machine RUNNING has completed an instruction: `pc` is 4 further on, within the buffer, and the
FSM is back in FETCH. -/
theorem step_to_running {s t : State} (h : step s = .next t) (ht : t.status = .running) :
    t.pc = s.pc + 4 ∧ t.pc ≤ s.progLen ∧ t.phase = .fetch := by
  obtain ⟨-, heffect⟩ := step_effect h
  cases heffect with
  | halt => cases ht
  | unknownOpcode => cases ht
  | missingIndex => cases ht
  | negativeOperand => cases ht
  | writeReg hfetch => exact ⟨rfl, fetch32_lt hfetch, rfl⟩
  | writeMem hfetch => exact ⟨rfl, fetch32_lt hfetch, rfl⟩

/-- A step that stops the machine writes no register, no memory word and not the `pc` (60_exceptions.md R170). -/
theorem step_to_stopped {s t : State} (h : step s = .next t) (ht : t.status ≠ .running) :
    t.x = s.x ∧ t.mem = s.mem ∧ t.pc = s.pc := by
  obtain ⟨hrun, heffect⟩ := step_effect h
  cases heffect with
  | halt => exact ⟨rfl, rfl, rfl⟩
  | unknownOpcode => exact ⟨rfl, rfl, rfl⟩
  | missingIndex => exact ⟨rfl, rfl, rfl⟩
  | negativeOperand => exact ⟨rfl, rfl, rfl⟩
  | writeReg => exact absurd hrun ht
  | writeMem => exact absurd hrun ht

/-- A step changes none of the run's arguments (10_state.md R21). -/
theorem step_sameArguments {s t : State} (h : step s = .next t) : SameArguments s t := by
  obtain ⟨-, heffect⟩ := step_effect h
  cases heffect with
  | halt => exact ⟨rfl, rfl, rfl⟩
  | unknownOpcode => exact ⟨rfl, rfl, rfl⟩
  | missingIndex => exact ⟨rfl, rfl, rfl⟩
  | negativeOperand => exact ⟨rfl, rfl, rfl⟩
  | writeReg => exact ⟨State.writeReg_regCount .., rfl, rfl⟩
  | writeMem => exact ⟨rfl, rfl, rfl⟩

/-- Settles O20: an instruction that completes adds 4, a halt or a fault writes the status only. -/
theorem pcAdvancesByFourOrStays : Obligations.PcAdvancesByFourOrStays := by
  unfold Obligations.PcAdvancesByFourOrStays
  refine ⟨fun s t h => ?_, fun _ _ _ => rfl⟩
  by_cases ht : t.status = .running
  · exact .inl ⟨ht, (step_to_running h ht).1⟩
  · exact .inr ⟨ht, (step_to_stopped h ht).2.2⟩

/-- Settles O21: the word fetched at `pc` lies in the buffer, so `pc + 4` is at most its length. -/
theorem stepKeepsPcAlignedAndInBuffer : Obligations.StepKeepsPcAlignedAndInBuffer := by
  unfold Obligations.StepKeepsPcAlignedAndInBuffer
  intro s t ⟨halign, hle⟩ h
  obtain ⟨-, -, hprog⟩ := step_sameArguments h
  rw [PcInv, State.progLen, hprog]
  by_cases ht : t.status = .running
  · obtain ⟨hpc, hin, -⟩ := step_to_running h ht
    exact ⟨by omega, hin⟩
  · obtain ⟨-, -, hpc⟩ := step_to_stopped h ht
    rw [hpc]
    exact ⟨halign, hle⟩

/-- Settles O22: the only change of memory is a write of one word at an existing address. -/
theorem stepKeepsMemoryCanonical : Obligations.StepKeepsMemoryCanonical := by
  unfold Obligations.StepKeepsMemoryCanonical
  intro s t hinv h
  obtain ⟨hwf, hbelow⟩ := hinv
  obtain ⟨-, heffect⟩ := step_effect h
  cases heffect with
  | halt => exact ⟨hwf, hbelow⟩
  | unknownOpcode => exact ⟨hwf, hbelow⟩
  | missingIndex => exact ⟨hwf, hbelow⟩
  | negativeOperand => exact ⟨hwf, hbelow⟩
  | writeReg => exact ⟨hwf, hbelow⟩
  | writeMem _ _ _ haddr => exact ⟨Memory.write_wf _ _ hwf, Memory.write_below _ hbelow haddr⟩

/-- The register written and the others after a register write. -/
theorem State.readReg_writeReg (s : State) {r : Nat} (j : Nat) (v : Word) (h : r < s.regCount) :
    (s.writeReg r v).readReg j = if j = r then v else s.readReg j := by
  split_ifs with hj
  · rw [hj, s.readReg_writeReg_same v h]
  · exact s.readReg_writeReg_other v hj

/-- The word written and the others after a memory write. -/
theorem Memory.read_write (m : Memory) (a b : Nat) (v : Word) :
    (m.write a v).read b = if b = a then v else m.read b := by
  split_ifs with hb
  · rw [hb, m.read_write_same]
  · exact m.read_write_other v hb

/-- A value an instruction writes to a register is below 2^20 where memory is: a constant fits its field, and a root is
at most its operand (10_state.md R27). -/
theorem RegSource.lt_two_pow_20 {s : State} {reg : Nat} {i : Instr} {v : Word} (hsource : RegSource s reg i v)
    (hwf : i.wellFormed = true) (hmem : ∀ a, (s.readMem a).toNat < 2 ^ 20) : v.toNat < 2 ^ 20 := by
  cases hsource with
  | loadConst value => exact (toNat_zext32_le value).trans_lt ((Instr.wellFormed_iff _).mp hwf).1
  | readMem => exact hmem _
  | sqrt => exact ((toNat_zext32_le _).trans (isqrt_le_self _)).trans_lt (hmem _)

/-- Settles O23: a completed instruction writes one register or one word, with a bounded value. -/
theorem stepKeepsValuesBelowTwoPow20 : Obligations.StepKeepsValuesBelowTwoPow20 := by
  unfold Obligations.StepKeepsValuesBelowTwoPow20
  intro s t hinv h
  obtain ⟨hregs, hmem⟩ := hinv
  obtain ⟨-, heffect⟩ := step_effect h
  cases heffect with
  | halt => exact ⟨hregs, hmem⟩
  | unknownOpcode => exact ⟨hregs, hmem⟩
  | missingIndex => exact ⟨hregs, hmem⟩
  | negativeOperand => exact ⟨hregs, hmem⟩
  | @writeReg w i reg v _ hdecode hreg hsource =>
    refine ⟨fun j => ?_, hmem⟩
    rw [State.complete_readReg, ((s.fetched w).decoded i).readReg_writeReg j v hreg]
    split_ifs
    · exact hsource.lt_two_pow_20 (wellFormed_of_decode hdecode) hmem
    · exact hregs j
  | writeMem =>
    refine ⟨hregs, fun b => ?_⟩
    rw [State.complete_readMem, State.writeMem_readMem, Memory.read_write]
    split_ifs
    · exact hregs _
    · exact hmem b

end Sys2Proof.Machine
end

/-! ### Faults and halting (41_control_fsm.md R112, R115; 60_exceptions.md R160 to R172) -/

section
namespace Sys2Proof.Machine

/-- An unknown verdict holds `w[5:0]` (40_decoder.md R95). -/
theorem decode_eq_unknown {w : Word} {op : BitVec 6} (h : decode w = .unknown op) : op = opcodeField w := by
  rcases decode_cases w with ⟨_, -, hknown⟩ | ⟨-, hunknown⟩
  · cases h.symm.trans hknown
  · exact Verdict.unknown.inj (h.symm.trans hunknown)

/-- The operands of a decoded instruction fit the record's index field. -/
theorem operands_lt_of_decode {w : Word} {i : Instr} (h : decode w = .known i) :
    i.regOperand < 2 ^ 5 ∧ ∀ a, i.addrOperand = some a → a < 2 ^ 19 := by
  obtain ⟨hb, hc⟩ := i.wellFormed_iff.mp (wellFormed_of_decode h)
  cases i with
  | loadConst value reg => exact ⟨hc, fun _ ha => nomatch ha⟩
  | readMem reg addr => exact ⟨hb, fun _ ha => Option.some.inj ha ▸ hc⟩
  | writeMem addr srcReg => exact ⟨hc, fun _ ha => Option.some.inj ha ▸ hb⟩
  | sqrt reg addr => exact ⟨hb, fun _ ha => Option.some.inj ha ▸ hc⟩

/-- Where no fault is taken the record claims nothing. -/
theorem recordInv_of_not_faulted {s : State} (h : ∀ c r, s.status ≠ .faulted c r) : RecordInv s :=
  fun c r hc => absurd hc (h c r)

/-- A step's fault record tells the truth: the faults are raised from the latched state, by failed checks. -/
theorem step_recordInv {s t : State} (h : step s = .next t) : RecordInv t := by
  obtain ⟨hrun, heffect⟩ := step_effect h
  cases heffect with
  | halt => exact recordInv_of_not_faulted fun _ _ hc => nomatch hc
  | writeReg => exact recordInv_of_not_faulted fun _ _ hc => nomatch hrun.symm.trans hc
  | writeMem => exact recordInv_of_not_faulted fun _ _ hc => nomatch hrun.symm.trans hc
  | unknownOpcode hfetch hdecode =>
    intro c r hc
    obtain ⟨rfl, rfl⟩ := Status.faulted.inj hc
    obtain rfl := decode_eq_unknown hdecode
    exact ⟨rfl, rfl, hfetch, hdecode, rfl, rfl, rfl⟩
  | @missingIndex w i sp n hfetch hdecode hmissing =>
    intro c r hc
    obtain ⟨rfl, rfl⟩ := Status.faulted.inj hc
    obtain ⟨hregFits, haddrFits⟩ := operands_lt_of_decode hdecode
    refine ⟨rfl, rfl, hfetch, ⟨i, hdecode, ?_⟩, rfl⟩
    rcases hmissing with ⟨rfl, rfl, hmissing⟩ | ⟨rfl, haddr, hmissing⟩
    · exact .inl ⟨rfl, State.toNat_faultIndex _ _ _ (lt_two_pow_19_of_reg hregFits), hmissing⟩
    · rw [State.toNat_faultIndex _ _ _ (haddrFits n haddr)]
      exact .inr ⟨rfl, haddr, hmissing⟩
  | @negativeOperand w reg addr hfetch hdecode haddr hneg =>
    intro c r hc
    obtain ⟨rfl, rfl⟩ := Status.faulted.inj hc
    have haddrFits := (operands_lt_of_decode hdecode).2 addr rfl
    rw [State.toNat_faultIndex _ _ _ haddrFits]
    exact ⟨rfl, rfl, hfetch, ⟨reg, hdecode⟩, rfl, haddr, rfl, hneg⟩

/-- Settles O24: each cause is raised by one failed check, and the record is made of what was checked. -/
theorem faultRecordTellsTheTruth : Obligations.FaultRecordTellsTheTruth := by
  unfold Obligations.FaultRecordTellsTheTruth
  exact fun _ _ => step_recordInv

/-- Settles O26: a step that stops has written the status only, its record is true of the state, and a stopped machine
has no step. -/
theorem faultsArePrecise : Obligations.FaultsArePrecise := by
  unfold Obligations.FaultsArePrecise
  intro s t c info h hfault
  have hstopped : t.status ≠ .running := fun hrun => nomatch hrun.symm.trans hfault
  obtain ⟨hx, hmem, hpc⟩ := step_to_stopped h hstopped
  obtain ⟨hprog, -⟩ := step_prog_pc h
  obtain ⟨hfaultPc, hfaultOp, hfetch, -⟩ := step_recordInv h c info hfault
  rw [hpc, hprog] at hfetch
  exact ⟨hx, hmem, hpc, step_sameArguments h, hfaultPc.trans hpc, hfetch, hfaultOp, fun k => runSteps_of_over k hstopped⟩

/-- Settles O18: the four codes listed are all there are, so the word has the verdict unknown. -/
theorem unknownOpcodeStopsTheMachine : Obligations.UnknownOpcodeStopsTheMachine := by
  unfold Obligations.UnknownOpcodeStopsTheMachine
  intro s w hrun hfetch hcode
  have hno (op : Opcode) : opcodeField w ≠ op.code := fun hop => hcode (by
    rw [opcodeField] at hop
    rw [hop]
    cases op <;> decide)
  exact ⟨_, _, step_eq_raiseUnknown hrun hfetch (decode_of_no_opcode hno), rfl, rfl, rfl, rfl, rfl, rfl, rfl, rfl, rfl, rfl⟩

/-- A step leads to HALTED only from the end of the buffer. -/
theorem step_to_halted {s t : State} (h : step s = .next t) (ht : t.status = .halted) :
    s.prog.length < s.pc + 4 ∧ t = s.halt := by
  obtain ⟨hrun, heffect⟩ := step_effect h
  cases heffect with
  | halt hfetch => exact ⟨fetch32_eq_none.mp hfetch, rfl⟩
  | unknownOpcode => cases ht
  | missingIndex => cases ht
  | negativeOperand => cases ht
  | writeReg => cases hrun.symm.trans ht
  | writeMem => cases hrun.symm.trans ht

/-- Settles O17: the fetch fails exactly when fewer than four bytes are left, and only a failed fetch halts. -/
theorem stepHaltsWhenFewerThanFourBytesRemain : Obligations.StepHaltsWhenFewerThanFourBytesRemain := by
  unfold Obligations.StepHaltsWhenFewerThanFourBytesRemain
  exact ⟨fun _ => step_eq_halt, fun _ _ => step_to_halted,
    fun _ _ _ htiny => step_eq_halt rfl (Nat.lt_succ_of_le htiny)⟩

/-- Every instruction has a next state. -/
theorem exists_exec_next (i : Instr) (s : State) : ∃ t, exec i s = .next t := by
  rcases exec_cases i s with ⟨sp, n, e, -⟩ | ⟨reg, addr, -, -, -, e⟩ | ⟨reg, v, -, e, -⟩ | ⟨addr, srcReg, -, -, -, e⟩
  · exact ⟨_, e⟩
  · exact ⟨_, e⟩
  · exact ⟨_, e⟩
  · exact ⟨_, e⟩

theorem exists_step_next {s : State} (hrun : s.status = .running) : ∃ t, step s = .next t := by
  cases hfetch : fetch32 s.prog s.pc with
  | none => exact ⟨_, step_eq_halt hrun (fetch32_eq_none.mp hfetch)⟩
  | some w =>
    cases hdecode : decode w with
    | unknown op => exact ⟨_, step_eq_raiseUnknown hrun hfetch hdecode⟩
    | known i =>
      rw [step_eq_exec hrun hfetch hdecode]
      exact exists_exec_next i _

theorem tick_running {s : State} (hrun : s.status = .running) : tick s = phaseStep s := by
  simp [tick, hrun]

/-- An FSM transition is taken while RUNNING. -/
theorem tick_next_running {s t : State} (h : tick s = .next t) : s.status = .running ∧ phaseStep s = .next t := by
  cases hs : s.status with
  | running => exact ⟨rfl, tick_running hs ▸ h⟩
  | halted => simp [tick, hs] at h
  | faulted c r => simp [tick, hs] at h

theorem exists_tick_next {s : State} (hrun : s.status = .running) : ∃ t, tick s = .next t := by
  rw [tick_running hrun]
  cases hphase : s.phase with
  | fetch =>
    simp only [phaseStep, hphase, fetchPhase]
    cases fetch32 s.prog s.pc <;> exact ⟨_, rfl⟩
  | decode =>
    simp only [phaseStep, hphase, decodePhase]
    cases decode s.ir <;> exact ⟨_, rfl⟩
  | execute =>
    simp only [phaseStep, hphase]
    exact exists_exec_next s.latch s

/-- A state whose run is over is not RUNNING, and has the host's fault for an answer. -/
theorem step_of_runIsOver {s : State} (h : s.runIsOver) : s.status ≠ .running ∧ ∃ f, step s = .fault f := by
  rcases h with hs | ⟨c, r, hs⟩
  · exact ⟨by simp [hs], _, by simp only [step, hs]; rfl⟩
  · exact ⟨by simp [hs], _, by simp only [step, hs]; rfl⟩

/-- Settles O19: `step` and `tick` ask for the status first, and every instruction and phase has a next state. -/
theorem exactlyRunningStatesHaveASuccessor : Obligations.ExactlyRunningStatesHaveASuccessor := by
  unfold Obligations.ExactlyRunningStatesHaveASuccessor
  refine fun s => ⟨⟨fun ⟨_, h⟩ => (step_cases h).1, exists_step_next⟩,
    ⟨fun ⟨_, h⟩ => (tick_next_running h).1, exists_tick_next⟩, fun r h => ?_, fun hover => ?_⟩
  · cases hs : s.status with
    | running =>
      obtain ⟨t, ht⟩ := exists_step_next hs
      cases h.symm.trans ht
    | halted => simp [step, hs] at h
    | faulted c info => simp [step, hs] at h
  · obtain ⟨hstopped, hfault⟩ := step_of_runIsOver hover
    exact ⟨hfault, fun k => runSteps_of_over k hstopped⟩

/-- Settles O34: the step on another buffer that fetches alike is the step with the buffer exchanged. -/
theorem stepReadsOnlyTheFetchedBytes : Obligations.StepReadsOnlyTheFetchedBytes := by
  unfold Obligations.StepReadsOnlyTheFetchedBytes
  intro s t prog hfetch h
  exact (step_withProg hfetch).trans (congrArg (StepResult.withProg prog) h)

end Sys2Proof.Machine
end

/-! ### The control FSM and the step (41_control_fsm.md R110 to R117) -/

section
namespace Sys2Proof.Machine

/-- One FSM transition and then `k` more, when the first has a next state. -/
theorem ticks_succ_of_next {s t : State} (k : Nat) (h : tick s = .next t) : ticks (k + 1) s = ticks k t := by
  simp [ticks, h]

section tickRules
variable {s : State} (hrun : s.status = .running)
include hrun

/-- FETCH at the end of the buffer halts (R112). -/
theorem tick_fetch_halt (hphase : s.phase = .fetch) (hfetch : fetch32 s.prog s.pc = none) : tick s = .next s.halt := by
  simp [tick_running hrun, phaseStep, hphase, fetchPhase, hfetch]

/-- FETCH of a word (R111). -/
theorem tick_fetch {w : Word} (hphase : s.phase = .fetch) (hfetch : fetch32 s.prog s.pc = some w) :
    tick s = .next (s.fetched w) := by
  simp [tick_running hrun, phaseStep, hphase, fetchPhase, hfetch]

/-- DECODE of an unknown opcode faults (R113). -/
theorem tick_decode_unknown {op : BitVec 6} (hphase : s.phase = .decode) (hdecode : decode s.ir = .unknown op) :
    tick s = .next s.raiseUnknown := by
  simp [tick_running hrun, phaseStep, hphase, decodePhase, hdecode]

/-- DECODE of a known instruction latches it (R113). -/
theorem tick_decode {i : Instr} (hphase : s.phase = .decode) (hdecode : decode s.ir = .known i) :
    tick s = .next (s.decoded i) := by
  simp [tick_running hrun, phaseStep, hphase, decodePhase, hdecode]

/-- EXECUTE runs the latched instruction (R114). -/
theorem tick_execute (hphase : s.phase = .execute) : tick s = exec s.latch s := by
  simp [tick_running hrun, phaseStep, hphase, executePhase]

end tickRules

/-- `n` transitions from `s` are one step, through RUNNING states in other phases that keep registers, memory and `pc`. -/
def TicksMakeStep (n : Nat) (s : State) : Prop :=
  ticks n s = step s ∧ ∀ m, 0 < m → m < n → ∃ u, ticks m s = .next u ∧ u.status = .running ∧ u.phase ≠ .fetch ∧
    u.x = s.x ∧ u.mem = s.mem ∧ u.pc = s.pc

section ticksMakeStep
variable {s : State} (hrun : s.status = .running) (hphase : s.phase = .fetch)
include hrun hphase

/-- At the end of the buffer FETCH alone is the step. -/
theorem ticksMakeStep_halt (hfetch : fetch32 s.prog s.pc = none) : TicksMakeStep 1 s := by
  refine ⟨?_, fun m hpos hlt => by omega⟩
  rw [ticks_succ_of_next 0 (tick_fetch_halt hrun hphase hfetch), step_eq_halt hrun (fetch32_eq_none.mp hfetch), ticks]

/-- For an unknown opcode FETCH and DECODE are the step. -/
theorem ticksMakeStep_unknown {w : Word} {op : BitVec 6} (hfetch : fetch32 s.prog s.pc = some w)
    (hdecode : decode w = .unknown op) : TicksMakeStep 2 s := by
  have hfirst := tick_fetch hrun hphase hfetch
  have hsecond := tick_decode_unknown (s := s.fetched w) hrun rfl hdecode
  refine ⟨?_, fun m hpos hlt => ?_⟩
  · rw [ticks_succ_of_next 1 hfirst, ticks_succ_of_next 0 hsecond, step_eq_raiseUnknown hrun hfetch hdecode, ticks]
  · obtain rfl : m = 1 := by omega
    exact ⟨_, ticks_succ_of_next 0 hfirst, hrun, by simp, rfl, rfl, rfl⟩

/-- For a known instruction all three phases are the step. -/
theorem ticksMakeStep_known {w : Word} {i : Instr} (hfetch : fetch32 s.prog s.pc = some w)
    (hdecode : decode w = .known i) : TicksMakeStep 3 s := by
  have hfirst := tick_fetch hrun hphase hfetch
  have hsecond := tick_decode (s := s.fetched w) hrun rfl hdecode
  obtain ⟨t, hexec⟩ := exists_exec_next i ((s.fetched w).decoded i)
  have hthird := (tick_execute (s := (s.fetched w).decoded i) hrun rfl).trans hexec
  refine ⟨?_, fun m hpos hlt => ?_⟩
  · rw [ticks_succ_of_next 2 hfirst, ticks_succ_of_next 1 hsecond, ticks_succ_of_next 0 hthird,
      step_eq_exec hrun hfetch hdecode, hexec, ticks]
  · obtain rfl | rfl : m = 1 ∨ m = 2 := by omega
    · exact ⟨_, ticks_succ_of_next 0 hfirst, hrun, by simp, rfl, rfl, rfl⟩
    · exact ⟨_, (ticks_succ_of_next 1 hfirst).trans (ticks_succ_of_next 0 hsecond), hrun, by simp, rfl, rfl, rfl⟩

/-- From FETCH the step is one, two or three transitions. -/
theorem exists_ticksMakeStep : ∃ n, 1 ≤ n ∧ n ≤ 3 ∧ TicksMakeStep n s := by
  cases hfetch : fetch32 s.prog s.pc with
  | none => exact ⟨1, by decide, by decide, ticksMakeStep_halt hrun hphase hfetch⟩
  | some w =>
    cases hdecode : decode w with
    | unknown op => exact ⟨2, by decide, by decide, ticksMakeStep_unknown hrun hphase hfetch hdecode⟩
    | known i => exact ⟨3, by decide, by decide, ticksMakeStep_known hrun hphase hfetch hdecode⟩

end ticksMakeStep

/-- Settles O28: the step ends in FETCH, DECODE or EXECUTE, and there the FSM is in the state the step is taken from. -/
theorem fsmRefinesStep : Obligations.FsmRefinesStep := by
  unfold Obligations.FsmRefinesStep
  intro s hrun hphase
  obtain ⟨n, hpos, hle, hstep, hbetween⟩ := exists_ticksMakeStep hrun hphase
  exact ⟨n, hpos, hle, hstep, hbetween, fun t h ht => (step_to_running h ht).2.2⟩

/-- In FETCH, and when the run is over, the latches are asked for nothing. -/
theorem latchInv_of_idle {s : State} (h : s.status = .running → s.phase = .fetch) : LatchInv s :=
  fun hrun => ⟨fun hdecode => (nomatch (h hrun).symm.trans hdecode),
    fun hexecute => (nomatch (h hrun).symm.trans hexecute)⟩

/-- An instruction ends in FETCH or stops the machine. -/
theorem exec_running_phase {i : Instr} {s t : State} (h : exec i s = .next t) : t.status = .running → t.phase = .fetch := by
  rcases exec_cases i s with ⟨sp, n, e, -⟩ | ⟨reg, addr, -, -, -, e⟩ | ⟨reg, v, -, e, -⟩ | ⟨addr, srcReg, -, -, -, e⟩ <;>
    obtain rfl : _ = t := Host.Outcome.next.inj (e.symm.trans h)
  · exact fun hrun => nomatch hrun
  · exact fun hrun => nomatch hrun
  · exact fun _ => rfl
  · exact fun _ => rfl

/-- Settles O29: FETCH writes `ir`, DECODE the latch, and EXECUTE goes back to FETCH or stops. -/
theorem tickKeepsLatchesCoherent : Obligations.TickKeepsLatchesCoherent := by
  unfold Obligations.TickKeepsLatchesCoherent
  intro s t hinv h
  obtain ⟨hrun, -⟩ := tick_next_running h
  cases hphase : s.phase with
  | fetch =>
    cases hfetch : fetch32 s.prog s.pc with
    | none =>
      obtain rfl := Host.Outcome.next.inj ((tick_fetch_halt hrun hphase hfetch).symm.trans h)
      exact latchInv_of_idle fun ht => nomatch ht
    | some w =>
      obtain rfl := Host.Outcome.next.inj ((tick_fetch hrun hphase hfetch).symm.trans h)
      exact fun _ => ⟨fun _ => hfetch, fun hexecute => nomatch hexecute⟩
  | decode =>
    have hir := (hinv hrun).1 hphase
    cases hdecode : decode s.ir with
    | unknown op =>
      obtain rfl := Host.Outcome.next.inj ((tick_decode_unknown hrun hphase hdecode).symm.trans h)
      exact latchInv_of_idle fun ht => nomatch ht
    | known i =>
      obtain rfl := Host.Outcome.next.inj ((tick_decode hrun hphase hdecode).symm.trans h)
      exact fun _ => ⟨fun hdecodePhase => (nomatch hdecodePhase), fun _ => ⟨hir, hdecode⟩⟩
  | execute => exact latchInv_of_idle (exec_running_phase ((tick_execute hrun hphase).symm.trans h))

end Sys2Proof.Machine
end

/-! ### Who changes what (10_state.md R25, 20_memory.md R40, R47) -/

section
namespace Sys2Proof.Machine

/-- The instruction fetched is the decoding of the word at `pc`. -/
theorem Fetches.eq_of_decode {s : State} {i j : Instr} {w : Word} (hi : Fetches s i)
    (hfetch : fetch32 s.prog s.pc = some w) (hdecode : decode w = .known j) : j = i := by
  obtain ⟨w', hfetch', hdecode'⟩ := hi
  obtain rfl := Option.some.inj (hfetch.symm.trans hfetch')
  exact Verdict.known.inj (hdecode.symm.trans hdecode')

/-- A changed memory word was stored by the WRITE_MEM fetched, which completed. -/
theorem step_changed_word {s t : State} {a : Nat} (h : step s = .next t) (hne : t.readMem a ≠ s.readMem a) :
    t.status = .running ∧ ∃ srcReg, Fetches s (.writeMem a srcReg) ∧ t.readMem a = s.readReg srcReg ∧
      a < s.memSize ∧ srcReg < s.regCount ∧ SameRegs s t := by
  obtain ⟨hrun, heffect⟩ := step_effect h
  cases heffect with
  | halt => exact absurd rfl hne
  | unknownOpcode => exact absurd rfl hne
  | missingIndex => exact absurd rfl hne
  | negativeOperand => exact absurd rfl hne
  | writeReg => exact absurd rfl hne
  | @writeMem w addr srcReg hfetch hdecode hreg haddr =>
    obtain rfl : a = addr := by
      by_contra hother
      exact hne (s.mem.read_write_other _ hother)
    exact ⟨hrun, srcReg, ⟨w, hfetch, hdecode⟩, s.mem.read_write_same a _, haddr, hreg, fun _ => rfl⟩

/-- Settles O36: WRITE_MEM is the only case of a step that writes memory. -/
theorem onlyWriteMemChangesMemory : Obligations.OnlyWriteMemChangesMemory := by
  unfold Obligations.OnlyWriteMemChangesMemory
  exact fun s t a h hne => (step_changed_word h hne).2

/-- The register written is the instruction's register operand. -/
theorem RegSource.regOperand_eq {s : State} {reg : Nat} {i : Instr} {v : Word} (hsource : RegSource s reg i v) :
    i.regOperand = reg := by
  cases hsource with
  | loadConst => rfl
  | readMem => rfl
  | sqrt => rfl

/-- A changed register was written by the instruction fetched, as its destination. -/
theorem step_changed_reg {s t : State} {r : Nat} (h : step s = .next t) (hne : t.readReg r ≠ s.readReg r) :
    ∃ i v, Fetches s i ∧ RegSource s r i v ∧ r < s.regCount ∧ OnlyRegChanged r s t ∧ SameMem s t := by
  obtain ⟨-, heffect⟩ := step_effect h
  cases heffect with
  | halt => exact absurd rfl hne
  | unknownOpcode => exact absurd rfl hne
  | missingIndex => exact absurd rfl hne
  | negativeOperand => exact absurd rfl hne
  | writeMem => exact absurd rfl hne
  | @writeReg w i reg v hfetch hdecode hreg hsource =>
    obtain rfl : r = reg := by
      by_contra hother
      exact hne (((s.fetched w).decoded i).readReg_writeReg_other v hother)
    obtain ⟨hregs, hmem, -⟩ := writeReg_complete_frame ((s.fetched w).decoded i) r v
    exact ⟨i, v, ⟨w, hfetch, hdecode⟩, hsource, hreg, hregs, hmem⟩

/-- Settles O37: the three instructions that write a register are the cases of `RegSource`. -/
theorem onlyDestinationRegistersChange : Obligations.OnlyDestinationRegistersChange := by
  unfold Obligations.OnlyDestinationRegistersChange
  intro s t r h hne
  obtain ⟨i, v, hfetches, hsource, hreg, hregs, hmem⟩ := step_changed_reg h hne
  refine ⟨?_, hreg, hregs, hmem⟩
  cases hsource with
  | loadConst value => exact .inl ⟨value, hfetches⟩
  | readMem => exact .inr ⟨_, .inl hfetches⟩
  | sqrt => exact .inr ⟨_, .inr hfetches⟩

/-- Settles O38: what a step changes is named by an operand of a decoded instruction, which fits its field. -/
theorem unencodableIndicesNeverChange : Obligations.UnencodableIndicesNeverChange := by
  unfold Obligations.UnencodableIndicesNeverChange
  refine fun s t h => ⟨fun r hr => ?_, fun a ha => ?_⟩
  · by_contra hne
    obtain ⟨i, v, ⟨w, -, hdecode⟩, hsource, -⟩ := step_changed_reg h hne
    have hfits := (operands_lt_of_decode hdecode).1
    rw [hsource.regOperand_eq] at hfits
    omega
  · by_contra hne
    obtain ⟨-, srcReg, ⟨w, -, hdecode⟩, -⟩ := step_changed_word h hne
    exact Nat.not_lt.mpr ha ((operands_lt_of_decode hdecode).2 a rfl)

/-- The operands of a fetched instruction are in range: its register and its word exist, and SQRT's operand is not negative. -/
def OperandsInRange (s : State) (i : Instr) : Prop :=
  i.regOperand < s.regCount ∧ (∀ a, i.addrOperand = some a → a < s.memSize) ∧
    ∀ reg a, i = .sqrt reg a → (s.readMem a).toNat < 2 ^ 31

/-- An instruction that wrote its register had its operands in range. -/
theorem RegSource.operandsInRange {s : State} {reg : Nat} {i : Instr} {v : Word} (hsource : RegSource s reg i v)
    (hreg : reg < s.regCount) : OperandsInRange s i := by
  refine ⟨hsource.regOperand_eq ▸ hreg, ?_⟩
  cases hsource with
  | loadConst => exact ⟨fun _ ha => (nomatch ha), fun _ _ hi => (nomatch hi)⟩
  | readMem haddr => exact ⟨fun _ ha => Option.some.inj ha ▸ haddr, fun _ _ hi => (nomatch hi)⟩
  | sqrt haddr hop => exact ⟨fun _ ha => Option.some.inj ha ▸ haddr, fun _ _ hi => (Instr.sqrt.inj hi).2 ▸ hop⟩

/-- The step of a fetched instruction leaves the machine RUNNING or HALTED exactly when the operands are in range. -/
theorem step_not_faulted_iff {s t : State} {i : Instr} (hfetches : Fetches s i) (h : step s = .next t) :
    (t.status = .running ∨ t.status = .halted) ↔ OperandsInRange s i := by
  obtain ⟨hrun, heffect⟩ := step_effect h
  cases heffect with
  | halt hfetch =>
    obtain ⟨w, hfetch', -⟩ := hfetches
    cases hfetch.symm.trans hfetch'
  | unknownOpcode hfetch hdecode =>
    obtain ⟨w, hfetch', hdecode'⟩ := hfetches
    obtain rfl := Option.some.inj (hfetch.symm.trans hfetch')
    cases hdecode.symm.trans hdecode'
  | missingIndex hfetch hdecode hmissing =>
    obtain rfl := hfetches.eq_of_decode hfetch hdecode
    refine iff_of_false (fun ht => nomatch ht) fun ⟨hreg, haddr, _⟩ => ?_
    rcases hmissing with ⟨-, rfl, hle⟩ | ⟨-, ha, hle⟩
    · exact Nat.not_lt.mpr hle hreg
    · exact Nat.not_lt.mpr hle (haddr _ ha)
  | negativeOperand hfetch hdecode haddr hneg =>
    obtain rfl := hfetches.eq_of_decode hfetch hdecode
    exact iff_of_false (fun ht => nomatch ht) fun ⟨_, _, hop⟩ => Nat.not_lt.mpr hneg (hop _ _ rfl)
  | writeReg hfetch hdecode hreg hsource =>
    obtain rfl := hfetches.eq_of_decode hfetch hdecode
    exact iff_of_true (.inl hrun) (hsource.operandsInRange hreg)
  | writeMem hfetch hdecode hreg haddr =>
    obtain rfl := hfetches.eq_of_decode hfetch hdecode
    exact iff_of_true (.inl hrun) ⟨hreg, fun _ ha => Option.some.inj ha ▸ haddr, fun _ _ hi => (nomatch hi)⟩

/-- Settles O39: a RUNNING machine has one next state, and the checks of the instruction decide whether it is faulted. -/
theorem stepIsSafeExactlyWhenOperandsAreInRange : Obligations.StepIsSafeExactlyWhenOperandsAreInRange := by
  unfold Obligations.StepIsSafeExactlyWhenOperandsAreInRange
  intro s i hrun hfetches
  obtain ⟨t, ht⟩ := exists_step_next hrun
  refine Iff.trans ⟨fun ⟨t', ht', hsafe⟩ => ?_, fun hsafe => ⟨t, ht, hsafe⟩⟩ (step_not_faulted_iff hfetches ht)
  rwa [Host.Outcome.next.inj (ht.symm.trans ht')]

end Sys2Proof.Machine
end

/-! ### Reset and the status outputs (10_state.md R32, R34) -/

section
namespace Sys2Proof.Machine

section reset
variable (regCount memSize : Nat) (prog : List Byte)

@[simp] theorem resetWith_regCount : (State.resetWith regCount memSize prog).regCount = regCount :=
  List.length_replicate

@[simp] theorem resetWith_readReg (i : Nat) : (State.resetWith regCount memSize prog).readReg i = 0 := by
  simp only [State.readReg, State.resetWith, List.getD, List.getElem?_replicate]
  split_ifs <;> rfl

@[simp] theorem resetWith_readMem (a : Nat) : (State.resetWith regCount memSize prog).readMem a = 0 := rfl

theorem resetWith_pcInv : PcInv (State.resetWith regCount memSize prog) := ⟨rfl, Nat.zero_le _⟩

theorem resetWith_memInv : MemInv (State.resetWith regCount memSize prog) := ⟨Memory.nil_wf, List.forall_mem_nil _⟩

theorem resetWith_boundInv : BoundInv (State.resetWith regCount memSize prog) := by
  simp [BoundInv]

theorem resetWith_latchInv : LatchInv (State.resetWith regCount memSize prog) := latchInv_of_idle fun _ => rfl

theorem resetWith_recordInv : RecordInv (State.resetWith regCount memSize prog) :=
  recordInv_of_not_faulted fun _ _ h => nomatch h

end reset

/-- Settles O14: the fields of `State.resetWith`, and the reads of a list of zeros and of the empty memory. -/
theorem resetLeavesZeroedState : Obligations.ResetLeavesZeroedState := by
  unfold Obligations.ResetLeavesZeroedState
  exact ⟨fun _ regCount memSize prog => ⟨resetWith_regCount .., rfl, rfl, resetWith_readReg regCount memSize prog,
      resetWith_readMem regCount memSize prog, rfl, rfl, rfl, rfl, rfl⟩,
    resetWith_regCount .., rfl, resetWith_readReg _ _ _, resetWith_readMem _ _ _, rfl, rfl⟩

/-- Settles O15: every invariant at reset. -/
theorem resetMeetsTheInvariants : Obligations.ResetMeetsTheInvariants := by
  unfold Obligations.ResetMeetsTheInvariants
  exact fun regCount memSize prog => ⟨resetWith_pcInv .., resetWith_memInv .., resetWith_boundInv ..,
    resetWith_latchInv regCount memSize prog, resetWith_recordInv regCount memSize prog⟩

/-- A fault cause has a number of its own, not the 0 of no fault (60_exceptions.md R161). -/
theorem FaultCause.code_ne_zero (c : FaultCause) : c.code ≠ 0 := by cases c <;> decide

/-- Settles O27: only a faulted status has a cause and a record. -/
theorem statusOutputsFollowTheTables : Obligations.StatusOutputsFollowTheTables := by
  unfold Obligations.StatusOutputsFollowTheTables
  refine ⟨fun st => ?_, rfl, rfl, fun _ _ => ⟨rfl, rfl, rfl⟩, rfl, rfl, rfl, rfl, rfl, rfl⟩
  cases st with
  | running => exact ⟨iff_of_true rfl (by decide), fun _ => rfl⟩
  | halted => exact ⟨iff_of_true rfl (by decide), fun _ => rfl⟩
  | faulted c r => exact ⟨iff_of_false c.code_ne_zero (absurd rfl), fun h => absurd h c.code_ne_zero⟩

end Sys2Proof.Machine
end

/-! ### Runs (41_control_fsm.md R119 to R122) -/

section
namespace Sys2Proof.Machine

/-- What every step keeps, every run keeps. -/
theorem runSteps_invariant {P : State → Prop} (hstep : ∀ s t, P s → step s = .next t → P t) (k : Nat) {s : State}
    (h : P s) : P (runSteps k s) := by
  induction k generalizing s with
  | zero => exact h
  | succ k ih =>
    by_cases hrun : s.status = .running
    · obtain ⟨t, ht⟩ := exists_step_next hrun
      rw [runSteps_succ_of_next ht]
      exact ih (hstep s t h ht)
    · rwa [runSteps_of_over _ hrun]

/-- A run cut in two. -/
theorem runSteps_add (j k : Nat) (s : State) : runSteps (j + k) s = runSteps k (runSteps j s) := by
  induction j generalizing s with
  | zero => rw [Nat.zero_add, runSteps]
  | succ j ih =>
    by_cases hrun : s.status = .running
    · obtain ⟨t, ht⟩ := exists_step_next hrun
      rw [Nat.succ_add, runSteps_succ_of_next ht, runSteps_succ_of_next ht, ih]
    · rw [runSteps_of_over _ hrun, runSteps_of_over _ hrun, runSteps_of_over _ hrun]

/-- The last step of a run: taken when the machine was RUNNING before it, else nothing changes. -/
theorem runSteps_succ_last (k : Nat) (s : State) :
    step (runSteps k s) = .next (runSteps (k + 1) s) ∨
      (runSteps k s).status ≠ .running ∧ runSteps (k + 1) s = runSteps k s := by
  rw [runSteps_add k 1]
  by_cases hrun : (runSteps k s).status = .running
  · obtain ⟨t, ht⟩ := exists_step_next hrun
    rw [runSteps_succ_of_next ht]
    exact .inl ht
  · exact .inr ⟨hrun, runSteps_of_over 1 hrun⟩

/-- No run changes the arguments of the run. -/
theorem runSteps_sameArguments (k : Nat) (s : State) : SameArguments s (runSteps k s) := by
  refine runSteps_invariant (P := SameArguments s) (fun t u ht h => ?_) k ⟨rfl, rfl, rfl⟩
  obtain ⟨hreg, hmem, hprog⟩ := ht
  obtain ⟨hreg', hmem', hprog'⟩ := step_sameArguments h
  exact ⟨hreg'.trans hreg, hmem'.trans hmem, hprog'.trans hprog⟩

/-- Settles O25: no case of a step writes an argument of the run. -/
theorem programAndSizesAreConstant : Obligations.ProgramAndSizesAreConstant := by
  unfold Obligations.ProgramAndSizesAreConstant
  exact ⟨fun _ _ => step_sameArguments, runSteps_sameArguments⟩

/-- While a run from `pc` 0 is RUNNING, every step made has moved `pc` on by 4. -/
theorem runSteps_pc {s : State} (hpc : s.pc = 0) (k : Nat) (hrun : (runSteps k s).status = .running) :
    (runSteps k s).pc = 4 * k := by
  induction k with
  | zero => exact hpc
  | succ k ih =>
    rcases runSteps_succ_last k s with hstep | ⟨hstopped, hsame⟩
    · have hbefore := ih (step_cases hstep).1
      have hmoved := (step_to_running hstep hrun).1
      omega
    · exact absurd (hsame ▸ hrun) hstopped

/-- Settles O31: by induction on the steps made. -/
theorem stepsMadeIsPcOverFour : Obligations.StepsMadeIsPcOverFour := by
  unfold Obligations.StepsMadeIsPcOverFour
  exact fun _ _ _ k => runSteps_pc rfl k

/-- A HALTED machine has fewer than four bytes left (10_state.md R30). -/
def HaltInv (s : State) : Prop := s.status = .halted → s.progLen < s.pc + 4

/-- A step that halts was taken from the end of the buffer, and stays there. -/
theorem step_haltInv {s t : State} (h : step s = .next t) : HaltInv t := by
  intro ht
  obtain ⟨hend, rfl⟩ := step_to_halted h ht
  exact hend

/-- A machine that is not RUNNING is HALTED or FAULTED (R125). -/
theorem runIsOver_of_not_running {s : State} (h : s.status ≠ .running) : s.runIsOver := by
  cases hs : s.status with
  | running => exact absurd hs h
  | halted => exact .inl hs
  | faulted c r => exact .inr ⟨c, r, hs⟩

section execute
variable (prog : List Byte) (regCount memSize : Nat)

/-- What holds at reset and is kept by every step holds at the end of the run. -/
theorem execute_invariant {P : State → Prop} (hstep : ∀ s t, P s → step s = .next t → P t)
    (hreset : P (State.resetWith regCount memSize prog)) : P (execute prog regCount memSize) :=
  runSteps_invariant hstep _ hreset

/-- The run's end state has the run's program. -/
theorem execute_progLen : (execute prog regCount memSize).progLen = prog.length :=
  congrArg List.length (runSteps_sameArguments _ (State.resetWith regCount memSize prog)).2.2

theorem execute_pcInv : PcInv (execute prog regCount memSize) :=
  execute_invariant prog regCount memSize stepKeepsPcAlignedAndInBuffer (resetWith_pcInv ..)

theorem execute_haltInv : HaltInv (execute prog regCount memSize) :=
  execute_invariant prog regCount memSize (fun _ _ _ => step_haltInv) fun h => nomatch h

theorem execute_recordInv : RecordInv (execute prog regCount memSize) :=
  execute_invariant prog regCount memSize (fun _ _ _ => step_recordInv) (resetWith_recordInv regCount memSize prog)

/-- A run from reset is over after one step more than the buffer has words: were it RUNNING, `pc` would be beyond the
buffer. -/
theorem execute_runIsOver : (execute prog regCount memSize).runIsOver := by
  refine runIsOver_of_not_running fun hrun => ?_
  have hpc : (execute prog regCount memSize).pc = 4 * (prog.length / 4 + 1) := runSteps_pc rfl _ hrun
  have hlen := execute_progLen prog regCount memSize
  obtain ⟨-, hle⟩ := execute_pcInv prog regCount memSize
  omega

end execute

/-- Settles O30: the bound on `pc` ends the run, and a run ends where the fetch fails or at the word of a fault. -/
theorem everyRunEnds : Obligations.EveryRunEnds := by
  unfold Obligations.EveryRunEnds
  intro prog regCount memSize
  have hover := execute_runIsOver prog regCount memSize
  have hlen := execute_progLen prog regCount memSize
  obtain ⟨halign, hle⟩ := execute_pcInv prog regCount memSize
  refine ⟨hover, fun hend => ?_, fun hfailed => ⟨halign, ?_⟩⟩
  · have hbeyond := execute_haltInv prog regCount memSize hend
    omega
  · obtain ⟨c, r, hfault⟩ := hover.resolve_left hfailed
    obtain ⟨-, -, hfetch, -⟩ := execute_recordInv prog regCount memSize c r hfault
    rw [← hlen]
    exact fetch32_lt hfetch

/-- A true record of a DomainError has a memory word with bit 31 set, which the value bound excludes. -/
theorem not_domainError_of_boundInv {s : State} (hbound : BoundInv s) (hrecord : RecordInv s) (info : FaultRecord) :
    s.status ≠ .faulted .domainError info := by
  intro hfault
  obtain ⟨-, -, -, -, -, -, hvalue, hneg⟩ := hrecord _ _ hfault
  have hlt := hbound.2 info.faultIndex.toNat
  rw [← hvalue] at hlt
  omega

/-- Settles O32: the value bound and the truth of the record hold at reset and are kept by every step. -/
theorem domainErrorUnreachableFromReset : Obligations.DomainErrorUnreachableFromReset := by
  unfold Obligations.DomainErrorUnreachableFromReset
  intro s regCount memSize k hreset
  have hbound : BoundInv (runSteps k s) :=
    runSteps_invariant stepKeepsValuesBelowTwoPow20 k (hreset.symm ▸ resetWith_boundInv regCount memSize s.prog)
  have hrecord : RecordInv (runSteps k s) :=
    runSteps_invariant (fun _ _ _ => step_recordInv) k (hreset.symm ▸ resetWith_recordInv regCount memSize s.prog)
  exact ⟨hbound, not_domainError_of_boundInv hbound hrecord⟩

/-- After a completed WRITE_MEM its word holds the value stored. -/
theorem StoresTo.readMem_eq {s t : State} {a : Nat} {v : Word} (hstore : StoresTo s a v) (h : step s = .next t) :
    t.readMem a = v := by
  obtain ⟨srcReg, t', hfetches, ht', hrun, rfl⟩ := hstore
  obtain rfl := Host.Outcome.next.inj (ht'.symm.trans h)
  obtain ⟨hreg, haddr, -⟩ := (step_not_faulted_iff hfetches h).mp (.inl hrun)
  obtain ⟨w, hfetch, hdecode⟩ := hfetches
  have hwrite := (step_eq_exec (step_cases h).1 hfetch hdecode).trans (exec_writeMem (haddr a rfl) hreg)
  rw [Host.Outcome.next.inj (h.symm.trans hwrite)]
  exact s.mem.read_write_same a _

/-- A step that stores nothing to an address leaves the word there alone. -/
theorem readMem_eq_of_not_storesTo {s t : State} {a : Nat} (hno : ∀ v, ¬ StoresTo s a v) (h : step s = .next t) :
    t.readMem a = s.readMem a := by
  by_contra hne
  obtain ⟨hrun, srcReg, hfetches, -⟩ := step_changed_word h hne
  exact hno _ ⟨srcReg, t, hfetches, h, hrun, rfl⟩

/-- The word at `a` after `k` steps of a run from `s` is the one most recently stored there, or 0 with none stored. -/
def HoldsMostRecentStore (s : State) (a k : Nat) : Prop :=
  (∃ j v, j < k ∧ StoresTo (runSteps j s) a v ∧ (runSteps k s).readMem a = v ∧
    ∀ l, j < l → l < k → ∀ v', ¬ StoresTo (runSteps l s) a v') ∨
  ((∀ j, j < k → ∀ v, ¬ StoresTo (runSteps j s) a v) ∧ (runSteps k s).readMem a = 0)

/-- A last step that stores nothing to `a` keeps the most recent store what it was. -/
theorem HoldsMostRecentStore.succ_of_no_store {s : State} {a k : Nat} (h : HoldsMostRecentStore s a k)
    (hno : ∀ v, ¬ StoresTo (runSteps k s) a v) (hsame : (runSteps (k + 1) s).readMem a = (runSteps k s).readMem a) :
    HoldsMostRecentStore s a (k + 1) := by
  have hextend {l : Nat} (hl : l < k + 1) (hearlier : l < k → ∀ v, ¬ StoresTo (runSteps l s) a v) :
      ∀ v, ¬ StoresTo (runSteps l s) a v := by
    rcases Nat.lt_succ_iff_lt_or_eq.mp hl with hlt | rfl
    · exact hearlier hlt
    · exact hno
  rcases h with ⟨j, v, hj, hstore, hread, hlast⟩ | ⟨hnone, hread⟩
  · exact .inl ⟨j, v, Nat.lt_succ_of_lt hj, hstore, hsame.trans hread, fun l hjl hl => hextend hl (hlast l hjl)⟩
  · exact .inr ⟨fun l hl => hextend hl (hnone l), hsame.trans hread⟩

/-- In a run from a memory that reads 0, every word holds its most recent store: by induction on the steps, the last of
which either stores to the address or leaves it alone. -/
theorem holdsMostRecentStore {s : State} {a : Nat} (hzero : s.readMem a = 0) (k : Nat) : HoldsMostRecentStore s a k := by
  induction k with
  | zero => exact .inr ⟨fun j hj => (nomatch hj), hzero⟩
  | succ k ih =>
    rcases runSteps_succ_last k s with hstep | ⟨hstopped, hsame⟩
    · by_cases hstore : ∃ v, StoresTo (runSteps k s) a v
      · obtain ⟨v, hv⟩ := hstore
        exact .inl ⟨k, v, Nat.lt_succ_self k, hv, hv.readMem_eq hstep, fun l hkl hl => by omega⟩
      · have hno := not_exists.mp hstore
        exact ih.succ_of_no_store hno (readMem_eq_of_not_storesTo hno hstep)
    · refine ih.succ_of_no_store (fun v ⟨_, _, _, hstep, _⟩ => hstopped (step_cases hstep).1) ?_
      rw [hsame]

/-- Settles O35: memory reads 0 at reset, and each step keeps the most recent store of every word. -/
theorem memoryHoldsTheMostRecentStore : Obligations.MemoryHoldsTheMostRecentStore := by
  unfold Obligations.MemoryHoldsTheMostRecentStore
  exact fun prog regCount memSize k a => holdsMostRecentStore (resetWith_readMem regCount memSize prog a) k

end Sys2Proof.Machine
end

/-! ### Canonical memories, read-out and dump (70_reset_and_hazards.md R198 to R203) -/

section
namespace Sys2Proof.Machine

/-- A memory lists nothing but 0 at an address it has no entry for. -/
theorem Memory.read_of_not_listed {m : Memory} {a : Nat} (h : ∀ p ∈ m, p.1 ≠ a) : m.read a = 0 := by
  induction m with
  | nil => rfl
  | cons p m ih =>
    obtain ⟨k, u⟩ := p
    rw [Memory.read, if_neg (h (k, u) List.mem_cons_self)]
    exact ih fun q hq => h q (List.mem_cons_of_mem _ hq)

/-- In a canonical memory the entries are the words that do not read as 0. -/
theorem Memory.mem_iff_read {m : Memory} (hwf : m.wf) {a : Nat} {v : Word} : (a, v) ∈ m ↔ m.read a = v ∧ v ≠ 0 := by
  induction m with
  | nil => exact ⟨fun hmem => (nomatch hmem), fun ⟨hzero, hv⟩ => absurd hzero.symm hv⟩
  | cons p m ih =>
    obtain ⟨k, u⟩ := p
    obtain ⟨hsorted, hnonzero⟩ := hwf
    obtain ⟨hhead, htail⟩ := List.pairwise_cons.mp hsorted
    obtain ⟨hu, hrest⟩ := List.forall_mem_cons.mp hnonzero
    by_cases hk : k = a
    · subst hk
      have hnot : (k, v) ∉ m := fun hmem => (hhead _ hmem).false
      simp only [List.mem_cons, hnot, or_false, Prod.mk.injEq, true_and, Memory.read, if_true]
      exact ⟨fun hv => ⟨hv.symm, hv ▸ hu⟩, fun hv => hv.1.symm⟩
    · rw [List.mem_cons, ih ⟨htail, hrest⟩, Memory.read, if_neg hk]
      simp [Ne.symm hk]

/-- Settles O51: canonical memories that read alike have the same entries in the same order. -/
theorem canonicalMemoriesThatReadAlikeAreEqual : Obligations.CanonicalMemoriesThatReadAlikeAreEqual := by
  unfold Obligations.CanonicalMemoriesThatReadAlikeAreEqual
  intro m n hm hn hread
  have hentries (p : Nat × Word) : p ∈ m ↔ p ∈ n := by
    rw [Memory.mem_iff_read hm, Memory.mem_iff_read hn, hread]
  have hnodup {l : Memory} (hl : l.wf) : l.Nodup := hl.1.imp fun hlt heq => hlt.ne (congrArg Prod.fst heq)
  have hperm := (List.perm_ext_iff_of_nodup (hnodup hm) (hnodup hn)).mpr hentries
  exact hperm.eq_of_pairwise (fun _ _ _ _ hlt hgt => absurd hgt hlt.asymm) hm.1 hn.1

/-- An ended run is read out as its own registers, memory, `pc` and status (R199). -/
theorem readOut_of_runIsOver {s : State} (h : s.runIsOver) : readOut s = some ⟨s.x, s.mem, s.pc, s.status⟩ := by
  rcases h with hs | ⟨c, r, hs⟩ <;> simp [readOut, hs]

theorem readOut_of_running {s : State} (h : s.status = .running) : readOut s = none := by
  simp [readOut, h]

/-- Settles O53: read-out asks for the status first. -/
theorem readOutOnlyWhenTheRunIsOver : Obligations.ReadOutOnlyWhenTheRunIsOver := by
  unfold Obligations.ReadOutOnlyWhenTheRunIsOver
  exact fun s => ⟨readOut_of_runIsOver, readOut_of_running⟩

/-- The dump of an ended run is made of its memory. -/
theorem dump_of_runIsOver {s : State} (h : s.runIsOver) (first last : Int) :
    dump s first last = some (dumpWords s.mem s.memSize first last) := by
  rw [dump, readOut_of_runIsOver h, Option.map_some]

/-- The words of a range that starts at or above 0: as many as it has addresses, the `k`-th at the `k`-th of them. -/
theorem getElem?_dumped_words (mem : Memory) {first last : Int} (h0 : 0 ≤ first) {k : Nat} (hk : (k : Int) ≤ last - first) :
    ((List.range' first.toNat (last - first + 1).toNat).map fun a => (a, mem.read a))[k]? =
      some ((first + k).toNat, mem.read (first + k).toNat) := by
  have hlt : k < (last - first + 1).toNat := by omega
  have haddr : first.toNat + k = (first + k).toNat := by omega
  rw [List.getElem?_map, List.getElem?_range' hlt, Nat.one_mul, haddr, Option.map_some]

/-- Settles O52: a bad range fails, and a good one gives the words of its addresses in order. -/
theorem dumpListsTheRangeInOrder : Obligations.DumpListsTheRangeInOrder := by
  unfold Obligations.DumpListsTheRangeInOrder
  refine fun s first last => ⟨fun hrun => ?_, fun hover hbad => ?_, fun hover h0 hle hlt => ?_⟩
  · rw [dump, readOut_of_running hrun, Option.map_none]
  · rw [dump_of_runIsOver hover, dumpWords_out_of_range hbad]
  · refine ⟨_, by rw [dump_of_runIsOver hover, dumpWords_in_range h0 hle hlt], ?_,
      fun k hk => getElem?_dumped_words s.mem h0 hk⟩
    rw [List.length_map, List.length_range']
    omega

end Sys2Proof.Machine
end
